-- ==== Sys2Proof/Word.lean ====
section
/-! DEFINITION. The sizes that types are made of, and the word types of the hardware: bytes, the
header, the command word and the pins. -/

namespace Sys2Proof

/-- `HEADER_LEN`: bytes in the header (R9). -/
abbrev Config.headerLen : Nat := 16

/-- `MAGIC_LEN`: bytes compared against the signature (R9). -/
abbrev Config.magicLen : Nat := 4

/-- `TRAINER_LEN`: bytes in the trainer block (R9). -/
abbrev Config.trainerLen : Nat := 512

/-- `MAPPER_W`: bits in the mapper number (R9). -/
abbrev Config.mapperW : Nat := 12

/-- 8 bits; bit 0 is the least significant (R11). -/
abbrev Byte := BitVec 8

/-- `RawHeader`: the header bytes, index 0 to 15 (R16). -/
abbrev Header := Vector Byte Config.headerLen

/-- The trainer: exactly 512 bytes (R18). -/
abbrev TrainerBlock := Vector Byte Config.trainerLen

/-- A ROM size as a count of units, `UNIT_W` = 66 bits (R10, R19). -/
abbrev Units := BitVec 66

/-- A merged size before the exponent test, `RAW_W` = 12 bits (R54). -/
abbrev RawSize := BitVec 12

/-- The mapper number, `MAPPER_W` bits (R9). -/
abbrev MapperNumber := BitVec Config.mapperW

/-- The header word `H` of the operation table, `HWORD_W` = 128 bits (R50). -/
abbrev HWord := BitVec 128

/-- The command word `cmd[1:0] ++ din[7:0]` (R51). -/
abbrev CmdWord := BitVec 10

/-- What the block samples at a rising edge of `clk` (R30). `trn_addr` is not among it: it is no
argument of a step (R104). -/
structure Pins where
  rst : BitVec 1
  cmd : BitVec 2
  din : Byte
deriving DecidableEq, Repr, Inhabited

end Sys2Proof
end

