-- ==== Sys2Proof/Config.lean ====
section
/-! DEFINITION. The constants of R9 and R10 that are not in Word.lean (where the sizes of types stand), and
the free values: what the spec leaves open. -/

namespace Sys2Proof.Config

/-- `MAGIC[0..3]`, "NES" and an end-of-file marker byte (R9). -/
def magic : Vector Byte magicLen := #v[0x4E#8, 0x45#8, 0x53#8, 0x1A#8]

/-- `TRAINER_BASE`: input offset of the first trainer byte (R9). -/
def trainerBase : Nat := 16

/-- `TRAINER_END` = `TRAINER_BASE + TRAINER_LEN` (R9). -/
def trainerEnd : Nat := trainerBase + trainerLen

/-- `CNT_MAX`, at which `CNT` saturates; equals `TRAINER_END` (R10). -/
def cntMax : Nat := trainerEnd

/-- `TRAINER_ERR_INDEX` (R9). -/
def trainerErrIndex : Fin 16 := 6

/-- `DIALECT_MARK`: the value of byte 7 bits 3:2 that selects `Extended` (R9). -/
def dialectMark : BitVec 2 := 0b10#2

/-- `EXP_SELECT`: the top nibble of a merged size that selects the exponent form (R9). -/
def expSelect : BitVec 4 := 0xF#4

/-- `PRG_UNIT`, bytes per PRG-ROM unit; applied by the consumer, never inside the block (R9, R84). -/
def prgUnit : Nat := 16384

/-- `CHR_UNIT`, bytes per CHR-ROM unit; applied by the consumer, never inside the block (R9, R84). -/
def chrUnit : Nat := 8192

/-- DESIGN CHOICE (log 4), safe. FREE VALUE: the pins at the k-th edge for which the host's list
gives none. The host may give any command in any state (R122), so nothing constrains them. -/
opaque freePins : Nat → Pins

/-- DESIGN CHOICE (log 7), safe. FREE VALUE: what `HDR[i]` holds after the k-th RESET ("unspecified
after reset (any value)", R35). -/
opaque freeHdrByte : Nat → Nat → Byte

/-- DESIGN CHOICE (log 6), safe. FREE VALUE: what `TRN[a]` holds after the k-th RESET while no PUSH
has written it ("unspecified after reset (any value)", R35). -/
opaque freeTrnByte : Nat → Nat → Byte

end Sys2Proof.Config
end

