-- ==== Sys2Proof/Syntax.lean ====
section
/-! DEFINITION. The operations of `opcode_table.json`, one constructor a row. -/

namespace Sys2Proof

/-- The groups of the header operations, in the order of the forward pipeline (R56). One header
selects one operation from each. -/
inductive HdrGroup where
  | len | magic | dialect | vmirror | battery | trainerf | fourscr | mapper | submap | timing
  | prgsize | chrsize | trainer | assemble
deriving DecidableEq, Repr

/-- One constructor per row of the operation table (R57). A header operation carries the header
fields that are its operands (R49); LENCHK and TRAINER.COPY read the input length, and
TRAINER.COPY the trainer bytes, from the state. -/
inductive Instr where
  /-- `LENCHK` (R63). -/
  | lenchk
  /-- `MAGIC` (R64) on header bytes 0 to 3. -/
  | magic (m0 m1 m2 m3 : Byte)
  /-- `DIALECT.E` (R67): the marker is `0b10`. -/
  | dialectE
  /-- `DIALECT.L` (R68) with its marker, any value but `0b10`. -/
  | dialectL (mark : BitVec 2)
  /-- `VMIRROR` (R70) on `h[6][0]`. -/
  | vmirror (bit : BitVec 1)
  /-- `BATTERY` (R71) on `h[6][1]`. -/
  | battery (bit : BitVec 1)
  /-- `TRAINERF` (R72) on `h[6][2]`. -/
  | trainerf (bit : BitVec 1)
  /-- `FOURSCR` (R73) on `h[6][3]`. -/
  | fourscr (bit : BitVec 1)
  /-- `MAPPER.E` (R78) on `h[6][7:4]`, `h[7][7:4]`, `h[8][3:0]`. -/
  | mapperE (mapLo mapMid mapHi : BitVec 4)
  /-- `MAPPER.L` (R77) on `h[6][7:4]`, `h[7][7:4]`. -/
  | mapperL (mapLo mapMid : BitVec 4)
  /-- `SUBMAP.E` (R74) on `h[8][7:4]`. -/
  | submapE (submapper : BitVec 4)
  /-- `TIMING.E` (R75) on `h[12][1:0]`. -/
  | timingE (timing : BitVec 2)
  /-- `PRGSIZE.EX` (R88) on `h[4]`; `h[9][3:0]` is `0xF`. -/
  | prgsizeEX (prgLo : Byte)
  /-- `PRGSIZE.EP` (R87) on `h[4]` and `h[9][3:0]`, not `0xF`. -/
  | prgsizeEP (prgLo : Byte) (prgHi : BitVec 4)
  /-- `PRGSIZE.L` (R86) on `h[4]`. -/
  | prgsizeL (prgLo : Byte)
  /-- `CHRSIZE.EX` (R92) on `h[5]`; `h[9][7:4]` is `0xF`. -/
  | chrsizeEX (chrLo : Byte)
  /-- `CHRSIZE.EP` (R91) on `h[5]` and `h[9][7:4]`, not `0xF`. -/
  | chrsizeEP (chrLo : Byte) (chrHi : BitVec 4)
  /-- `CHRSIZE.L` (R90) on `h[5]`. -/
  | chrsizeL (chrLo : Byte)
  /-- `TRAINER.COPY` (R95). -/
  | trainerCopy
  /-- `TRAINER.ABSENT` (R94). -/
  | trainerAbsent
  /-- `ASSEMBLE` (R97). -/
  | assemble
  /-- `NOP` (R105). -/
  | nop
  /-- `PUSH` (R106) of the byte on `din`. -/
  | push (din : Byte)
  /-- `END` (R107). -/
  | endInput
  /-- `CLR` (R108). -/
  | clr
  /-- `RESET` (R109). -/
  | reset
deriving DecidableEq, Repr

/-- A word of one of the three formats (R48). A header selects one operation from EACH group, so a
header word is read for a group (R56). -/
inductive Encoded where
  | hdr (g : HdrGroup) (h : Header)
  | cmd (w : CmdWord)
  | rst (b : BitVec 1)
deriving DecidableEq, Repr

end Sys2Proof
end

