-- ==== Sys2Proof/WellFormed.lean ====
section
/-! DEFINITION. Which instructions some header or command word stands for. -/

namespace Sys2Proof

/-- The operands a row admits. DIALECT.L is selected for every marker but `0b10` (R68); a plain
count has a high nibble other than `0xF` (R87, R91). Every other operand is free. -/
def Instr.wellFormed : Instr → Bool
  | .lenchk => true
  | .magic _ _ _ _ => true
  | .dialectE => true
  | .dialectL mark => mark != Config.dialectMark
  | .vmirror _ => true
  | .battery _ => true
  | .trainerf _ => true
  | .fourscr _ => true
  | .mapperE _ _ _ => true
  | .mapperL _ _ => true
  | .submapE _ => true
  | .timingE _ => true
  | .prgsizeEX _ => true
  | .prgsizeEP _ prgHi => prgHi != Config.expSelect
  | .prgsizeL _ => true
  | .chrsizeEX _ => true
  | .chrsizeEP _ chrHi => chrHi != Config.expSelect
  | .chrsizeL _ => true
  | .trainerCopy => true
  | .trainerAbsent => true
  | .assemble => true
  | .nop => true
  | .push _ => true
  | .endInput => true
  | .clr => true
  | .reset => true

/-- Well-formedness as a proposition. -/
abbrev Instr.WellFormed (i : Instr) : Prop := i.wellFormed = true

end Sys2Proof
end

