-- ==== Sys2Proof/Decode.lean ====
section
/-! DEFINITION. From header, command and reset words to instructions, and back. -/

namespace Sys2Proof

/-- Why a word stands for no instruction. -/
inductive Reject where
  /-- No row of the group matches the header: the group does nothing (R56). -/
  | noRow (g : HdrGroup)
  /-- `rst` = 0 is no operation of its own; it lets the command word act (R51). -/
  | rstLow
  /-- A number with bits beyond its format's width (R48). -/
  | tooWide
  /-- No format has this many bits (R48). -/
  | noFormat (nbits : Nat)
deriving DecidableEq, Repr

/-! ### Fields of the header (R49) -/

def Field.prgLo (h : Header) : Byte := h[4]
def Field.chrLo (h : Header) : Byte := h[5]
def Field.vmirror (h : Header) : BitVec 1 := h[6].extractLsb' 0 1
def Field.battery (h : Header) : BitVec 1 := h[6].extractLsb' 1 1
def Field.trainerFlag (h : Header) : BitVec 1 := h[6].extractLsb' 2 1
def Field.fourScreen (h : Header) : BitVec 1 := h[6].extractLsb' 3 1
def Field.mapLo (h : Header) : BitVec 4 := h[6].extractLsb' 4 4
def Field.dialectMark (h : Header) : BitVec 2 := h[7].extractLsb' 2 2
def Field.mapMid (h : Header) : BitVec 4 := h[7].extractLsb' 4 4
def Field.mapHi (h : Header) : BitVec 4 := h[8].extractLsb' 0 4
def Field.submapper (h : Header) : BitVec 4 := h[8].extractLsb' 4 4
def Field.prgHi (h : Header) : BitVec 4 := h[9].extractLsb' 0 4
def Field.chrHi (h : Header) : BitVec 4 := h[9].extractLsb' 4 4
def Field.timing (h : Header) : BitVec 2 := h[12].extractLsb' 0 2

/-- The groups in the order of the forward pipeline "1→7" (R56). -/
def pipeline : List HdrGroup :=
  [.len, .magic, .dialect, .vmirror, .battery, .trainerf, .fourscr, .mapper, .submap, .timing,
   .prgsize, .chrsize, .trainer, .assemble]

/-- Bytes 0 to 3 are the signature, `H[31:0] = 0x1A53454E` (R50, R64). -/
def signatureOk (h : Header) : Bool := #v[h[0], h[1], h[2], h[3]] == Config.magic

/-- "ext" of R57: `h[7][3:2] == 0b10`. -/
def isExtended (h : Header) : Bool := Field.dialectMark h == Config.dialectMark

/-! ### Selection of a row (R56, R57) -/

/-- A row that any header with the signature selects. -/
def onValid (h : Header) (i : Instr) : Option Instr := if signatureOk h then some i else none

/-- A row that only an `Extended` header selects. -/
def onExtended (h : Header) (i : Instr) : Option Instr :=
  if signatureOk h && isExtended h then some i else none

/-- The row of group `g` that header `h` selects, with its operand fields (R57). LENCHK is selected
for every input (R63). MAGIC is selected for every header too, although its table pattern is the
signature itself: a header that does not match is what it reports (R56, R57; DEDUCED, log 10). -/
def selectRow (g : HdrGroup) (h : Header) : Option Instr :=
  match g with
  | .len => some .lenchk
  | .magic => some (.magic h[0] h[1] h[2] h[3])
  | .dialect => onValid h (if isExtended h then .dialectE else .dialectL (Field.dialectMark h))
  | .vmirror => onValid h (.vmirror (Field.vmirror h))
  | .battery => onValid h (.battery (Field.battery h))
  | .trainerf => onValid h (.trainerf (Field.trainerFlag h))
  | .fourscr => onValid h (.fourscr (Field.fourScreen h))
  | .mapper => onValid h
      (if isExtended h then .mapperE (Field.mapLo h) (Field.mapMid h) (Field.mapHi h)
       else .mapperL (Field.mapLo h) (Field.mapMid h))
  | .submap => onExtended h (.submapE (Field.submapper h))
  | .timing => onExtended h (.timingE (Field.timing h))
  | .prgsize => onValid h
      (if isExtended h then
        if Field.prgHi h = Config.expSelect then .prgsizeEX (Field.prgLo h)
        else .prgsizeEP (Field.prgLo h) (Field.prgHi h)
       else .prgsizeL (Field.prgLo h))
  | .chrsize => onValid h
      (if isExtended h then
        if Field.chrHi h = Config.expSelect then .chrsizeEX (Field.chrLo h)
        else .chrsizeEP (Field.chrLo h) (Field.chrHi h)
       else .chrsizeL (Field.chrLo h))
  | .trainer => onValid h (if Field.trainerFlag h = 1#1 then .trainerCopy else .trainerAbsent)
  | .assemble => onValid h .assemble

/-- The four command codes (R51); `din` is an operand of PUSH only. -/
def decodeCmd (w : CmdWord) : Instr :=
  match w.extractLsb' 8 2 with
  | 0b00#2 => .nop
  | 0b01#2 => .push (w.extractLsb' 0 8)
  | 0b10#2 => .endInput
  | 0b11#2 => .clr

/-- The instruction a word stands for, total on every word of every format. -/
def decode : Encoded → Except Reject Instr
  | .hdr g h =>
    match selectRow g h with
    | some i => .ok i
    | none => .error (.noRow g)
  | .cmd w => .ok (decodeCmd w)
  | .rst b => if b = 1#1 then .ok .reset else .error .rstLow

/-! ### The encoder -/

/-- A header with the signature and the bytes the operations read; every other byte `0x00`
(the notation `hdr{...}` of R61). -/
def signedHeader (b4 b5 b6 b7 b8 b9 b12 : Byte) : Header :=
  #v[Config.magic[0], Config.magic[1], Config.magic[2], Config.magic[3], b4, b5, b6, b7, b8, b9,
    0x00#8, 0x00#8, b12, 0x00#8, 0x00#8, 0x00#8]

/-- Byte 7 of an `Extended` header: a high nibble, and the marker in bits 3:2. -/
def markedByte (hi : BitVec 4) : Byte := hi ++ Config.dialectMark ++ 0#2

/-- A word that stands for the instruction: its row's match bits, its operand fields in their
places (R49, R51), every other bit 0. -/
def encode : Instr → Encoded
  | .lenchk => .hdr .len (Vector.replicate Config.headerLen 0x00#8)
  | .magic m0 m1 m2 m3 => .hdr .magic
      #v[m0, m1, m2, m3, 0x00#8, 0x00#8, 0x00#8, 0x00#8, 0x00#8, 0x00#8, 0x00#8, 0x00#8, 0x00#8,
        0x00#8, 0x00#8, 0x00#8]
  | .dialectE => .hdr .dialect (signedHeader 0 0 0 (markedByte 0) 0 0 0)
  | .dialectL mark => .hdr .dialect (signedHeader 0 0 0 (0#4 ++ mark ++ 0#2) 0 0 0)
  | .vmirror bit => .hdr .vmirror (signedHeader 0 0 (0#7 ++ bit) 0 0 0 0)
  | .battery bit => .hdr .battery (signedHeader 0 0 (0#6 ++ bit ++ 0#1) 0 0 0 0)
  | .trainerf bit => .hdr .trainerf (signedHeader 0 0 (0#5 ++ bit ++ 0#2) 0 0 0 0)
  | .fourscr bit => .hdr .fourscr (signedHeader 0 0 (0#4 ++ bit ++ 0#3) 0 0 0 0)
  | .mapperE lo mid hi =>
      .hdr .mapper (signedHeader 0 0 (lo ++ 0#4) (markedByte mid) (0#4 ++ hi) 0 0)
  | .mapperL lo mid => .hdr .mapper (signedHeader 0 0 (lo ++ 0#4) (mid ++ 0#4) 0 0 0)
  | .submapE sub => .hdr .submap (signedHeader 0 0 0 (markedByte 0) (sub ++ 0#4) 0 0)
  | .timingE t => .hdr .timing (signedHeader 0 0 0 (markedByte 0) 0 0 (0#6 ++ t))
  | .prgsizeEX lo => .hdr .prgsize (signedHeader lo 0 0 (markedByte 0) 0 (0#4 ++ Config.expSelect) 0)
  | .prgsizeEP lo hi => .hdr .prgsize (signedHeader lo 0 0 (markedByte 0) 0 (0#4 ++ hi) 0)
  | .prgsizeL lo => .hdr .prgsize (signedHeader lo 0 0 0 0 0 0)
  | .chrsizeEX lo => .hdr .chrsize (signedHeader 0 lo 0 (markedByte 0) 0 (Config.expSelect ++ 0#4) 0)
  | .chrsizeEP lo hi => .hdr .chrsize (signedHeader 0 lo 0 (markedByte 0) 0 (hi ++ 0#4) 0)
  | .chrsizeL lo => .hdr .chrsize (signedHeader 0 lo 0 0 0 0 0)
  | .trainerCopy => .hdr .trainer (signedHeader 0 0 0x04 0 0 0 0)
  | .trainerAbsent => .hdr .trainer (signedHeader 0 0 0 0 0 0 0)
  | .assemble => .hdr .assemble (signedHeader 0 0 0 0 0 0 0)
  | .nop => .cmd (0b00#2 ++ 0x00#8)
  | .push din => .cmd (0b01#2 ++ din)
  | .endInput => .cmd (0b10#2 ++ 0x00#8)
  | .clr => .cmd (0b11#2 ++ 0x00#8)
  | .reset => .rst 1#1

/-! ### The operation table (R50, R56) -/

/-- `H[8i+7:8i] = h[i]` (R50). -/
def headerOfWord (w : HWord) : Header := Vector.ofFn fun i => w.extractLsb' (8 * i.val) 8

/-- One row of format HDR of `opcode_table.json`. -/
structure Row where
  mnemonic : String
  group : HdrGroup
  priority : Nat
  mask : HWord
  pattern : HWord
deriving DecidableEq, Repr

/-- The rows of format HDR, copied from `opcode_table.json`. -/
def hdrTable : List Row :=
  [⟨"LENCHK", .len, 0, 0x00000000000000000000000000000000#128,
      0x00000000000000000000000000000000#128⟩,
    ⟨"MAGIC", .magic, 0, 0x000000000000000000000000FFFFFFFF#128,
      0x0000000000000000000000001A53454E#128⟩,
    ⟨"DIALECT.E", .dialect, 0, 0x00000000000000000C000000FFFFFFFF#128,
      0x0000000000000000080000001A53454E#128⟩,
    ⟨"DIALECT.L", .dialect, 1, 0x000000000000000000000000FFFFFFFF#128,
      0x0000000000000000000000001A53454E#128⟩,
    ⟨"VMIRROR", .vmirror, 0, 0x000000000000000000000000FFFFFFFF#128,
      0x0000000000000000000000001A53454E#128⟩,
    ⟨"BATTERY", .battery, 0, 0x000000000000000000000000FFFFFFFF#128,
      0x0000000000000000000000001A53454E#128⟩,
    ⟨"TRAINERF", .trainerf, 0, 0x000000000000000000000000FFFFFFFF#128,
      0x0000000000000000000000001A53454E#128⟩,
    ⟨"FOURSCR", .fourscr, 0, 0x000000000000000000000000FFFFFFFF#128,
      0x0000000000000000000000001A53454E#128⟩,
    ⟨"MAPPER.E", .mapper, 0, 0x00000000000000000C000000FFFFFFFF#128,
      0x0000000000000000080000001A53454E#128⟩,
    ⟨"MAPPER.L", .mapper, 1, 0x000000000000000000000000FFFFFFFF#128,
      0x0000000000000000000000001A53454E#128⟩,
    ⟨"SUBMAP.E", .submap, 0, 0x00000000000000000C000000FFFFFFFF#128,
      0x0000000000000000080000001A53454E#128⟩,
    ⟨"TIMING.E", .timing, 0, 0x00000000000000000C000000FFFFFFFF#128,
      0x0000000000000000080000001A53454E#128⟩,
    ⟨"PRGSIZE.EX", .prgsize, 0, 0x0000000000000F000C000000FFFFFFFF#128,
      0x0000000000000F00080000001A53454E#128⟩,
    ⟨"PRGSIZE.EP", .prgsize, 1, 0x00000000000000000C000000FFFFFFFF#128,
      0x0000000000000000080000001A53454E#128⟩,
    ⟨"PRGSIZE.L", .prgsize, 2, 0x000000000000000000000000FFFFFFFF#128,
      0x0000000000000000000000001A53454E#128⟩,
    ⟨"CHRSIZE.EX", .chrsize, 0, 0x000000000000F0000C000000FFFFFFFF#128,
      0x000000000000F000080000001A53454E#128⟩,
    ⟨"CHRSIZE.EP", .chrsize, 1, 0x00000000000000000C000000FFFFFFFF#128,
      0x0000000000000000080000001A53454E#128⟩,
    ⟨"CHRSIZE.L", .chrsize, 2, 0x000000000000000000000000FFFFFFFF#128,
      0x0000000000000000000000001A53454E#128⟩,
    ⟨"TRAINER.COPY", .trainer, 0, 0x000000000000000000040000FFFFFFFF#128,
      0x0000000000000000000400001A53454E#128⟩,
    ⟨"TRAINER.ABSENT", .trainer, 1, 0x000000000000000000000000FFFFFFFF#128,
      0x0000000000000000000000001A53454E#128⟩,
    ⟨"ASSEMBLE", .assemble, 0, 0x000000000000000000000000FFFFFFFF#128,
      0x0000000000000000000000001A53454E#128⟩]

/-- A row applies to a header when `(H & mask) == match` (R50). -/
def Row.applies (r : Row) (w : HWord) : Bool := w &&& r.mask == r.pattern

/-- The row of group `g` that the table selects for a header word: of the rows whose pattern holds,
the one with the lowest priority number (R56). -/
def tableRow (g : HdrGroup) (w : HWord) : Option Row :=
  ((hdrTable.filter fun r => r.group == g && r.applies w).foldl
    (fun best r =>
      match best with
      | none => some r
      | some b => if r.priority < b.priority then some r else some b)
    none)

/-- The row's name in `opcode_table.json`. -/
def Instr.mnemonic : Instr → String
  | .lenchk => "LENCHK"
  | .magic _ _ _ _ => "MAGIC"
  | .dialectE => "DIALECT.E"
  | .dialectL _ => "DIALECT.L"
  | .vmirror _ => "VMIRROR"
  | .battery _ => "BATTERY"
  | .trainerf _ => "TRAINERF"
  | .fourscr _ => "FOURSCR"
  | .mapperE _ _ _ => "MAPPER.E"
  | .mapperL _ _ => "MAPPER.L"
  | .submapE _ => "SUBMAP.E"
  | .timingE _ => "TIMING.E"
  | .prgsizeEX _ => "PRGSIZE.EX"
  | .prgsizeEP _ _ => "PRGSIZE.EP"
  | .prgsizeL _ => "PRGSIZE.L"
  | .chrsizeEX _ => "CHRSIZE.EX"
  | .chrsizeEP _ _ => "CHRSIZE.EP"
  | .chrsizeL _ => "CHRSIZE.L"
  | .trainerCopy => "TRAINER.COPY"
  | .trainerAbsent => "TRAINER.ABSENT"
  | .assemble => "ASSEMBLE"
  | .nop => "NOP"
  | .push _ => "PUSH"
  | .endInput => "END"
  | .clr => "CLR"
  | .reset => "RESET"

/-! ### Words numbered as the table numbers them -/

/-- The group whose selected row names a header word most closely: of the rows the header selects,
the one with the most bits in its mask, the first in pipeline order among equals. One header
selects a row of every group at once (R56), so many rows share one word and a word alone names only
one of them. DESIGN CHOICE (log 9). -/
def leadGroup (h : Header) : HdrGroup :=
  if signatureOk h then
    if isExtended h then
      if Field.prgHi h = Config.expSelect then .prgsize
      else if Field.chrHi h = Config.expSelect then .chrsize
      else .dialect
    else if Field.trainerFlag h = 1#1 then .trainer
    else .magic
  else .len

/-- The word of `nbits` bits with value `w`, in the format that length names: 1 bit (one byte) is
RST, 10 bits (two bytes) CMD, more a header; a row that fixes no bit at all is a header too
(log 9). -/
def encodedOfTableWord (nbits w : Nat) : Except Reject Encoded :=
  if nbits = 0 ∨ 16 < nbits ∧ nbits ≤ 128 then
    if w < 2 ^ 128 then
      .ok (.hdr (leadGroup (headerOfWord (BitVec.ofNat 128 w))) (headerOfWord (BitVec.ofNat 128 w)))
    else .error .tooWide
  else if nbits ≤ 8 then
    if w < 2 then .ok (.rst (BitVec.ofNat 1 w)) else .error .tooWide
  else if nbits ≤ 16 then
    if w < 1024 then .ok (.cmd (BitVec.ofNat 10 w)) else .error .tooWide
  else .error (.noFormat nbits)

/-- The instruction the decoder reads from an instruction numbered as `opcode_table.json` numbers
it. -/
def decodeTableWord (nbits w : Nat) : Option Instr :=
  match encodedOfTableWord nbits w with
  | .error _ => none
  | .ok e =>
    match decode e with
    | .ok i => some i
    | .error _ => none

end Sys2Proof
end

