-- ==== Sys2Proof/Machine/State.lean ====
section
/-! DEFINITION. The state of the block, the values of layer 1, and the reasons a step can stop. -/

namespace Sys2Proof.Machine

/-! ### Data model of layer 1 (R16 to R22) -/

/-- `FormatDialect` (R17). -/
inductive FormatDialect where
  | legacy
  | extended
deriving DecidableEq, Repr

/-- The region-timing enumeration (R75). -/
inductive RegionTiming where
  | ntsc
  | pal
  | multiRegion
  | dendy
deriving DecidableEq, Repr

/-- `DecodeError` (R22): a result of a decode, no fault of the machine (R115). The index, of
`ERRIDX_W` = 4 bits (R10), is a byte offset of the header. -/
inductive DecodeError where
  | tooShort
  | invalidHeader (index : Fin 16)
deriving DecidableEq, Repr

/-- `CartridgeDescriptor`: exactly the six fields of R18. Sizes count units (R19). -/
structure Descriptor where
  prgRomSize : Units
  chrRomSize : Units
  mapperNumber : MapperNumber
  verticalMirroring : Bool
  fourScreenVram : Bool
  trainer : Option TrainerBlock
deriving DecidableEq, Repr

/-- The result of a decode: a descriptor or a failure, never both (R22). -/
inductive DecodeResult where
  | ok (d : Descriptor)
  | err (e : DecodeError)
deriving DecidableEq, Repr

/-- The internal signals: what the layer-1 operations evaluated so far for the present contents of
the block have returned (R28, R35: functions of the state with no value of their own, on no port).
`none` is "not evaluated", or, for the submapper and the timing of a `Legacy` header, "no such
value" (R74). DESIGN CHOICE (log 2): the model's own field; no port and no command reads it. -/
structure Signals where
  /-- LENCHK returned pass (R63). -/
  lenPassed : Bool
  /-- MAGIC returned pass (R64). -/
  magicPassed : Bool
  dialect : Option FormatDialect
  verticalMirroring : Option Bool
  battery : Option Bool
  trainerFlag : Option Bool
  fourScreen : Option Bool
  mapper : Option MapperNumber
  submapper : Option (BitVec 4)
  timing : Option RegionTiming
  prgExp : Option Bool
  prg : Option Units
  chrExp : Option Bool
  chr : Option Units
  /-- The `trainer` field: `some none` is "absent" (R94). -/
  trainer : Option (Option TrainerBlock)
  /-- What ended the decode: the descriptor assembled, or the failure raised (R98). -/
  result : Option DecodeResult
deriving DecidableEq, Repr

/-- No signal evaluated. -/
def Signals.idle : Signals :=
  { lenPassed := false, magicPassed := false, dialect := none, verticalMirroring := none,
    battery := none, trainerFlag := none, fourScreen := none, mapper := none, submapper := none,
    timing := none, prgExp := none, prg := none, chrExp := none, chr := none, trainer := none,
    result := none }

/-! ### State of the port machine (R23 to R29) -/

/-- `PHASE`, 1 bit: `RUN` = 0, `DONE` = 1 (R26). -/
inductive Phase where
  | run
  | done
deriving DecidableEq, Repr

/-- What the outside does next: a rising edge of `clk` with values on the pins (R30), or an
observer's request to evaluate the operation that a layer-1 group selects (DESIGN CHOICE, log 1;
no edge, and no port shows it). -/
inductive Stimulus where
  | edge (p : Pins)
  | evaluate (g : HdrGroup)
deriving DecidableEq, Repr

/-- The four elements of R23, and below them the model's own fields. -/
structure State where
  /-- `HDR[0..15]` (R24). -/
  hdr : Header
  /-- `CNT`, 10 bits: input bytes accepted, saturated at 528 (R25). -/
  cnt : BitVec 10
  /-- `PHASE` (R26). -/
  phase : Phase
  /-- `TRN[0..511]` (R27): the bytes written since the last RESET, by rising address (log 6). -/
  trn : List Host.Cell
  /-- The internal signals (log 2). -/
  sig : Signals
  /-- What the outside does next, first to come first (log 3). -/
  inputs : List Stimulus
  /-- How many RESET operations ran: index of the free values of HDR and TRN (log 7). -/
  resets : Nat
  /-- How many edges had free pins: index of those free values (log 4). -/
  freeEdges : Nat
deriving DecidableEq, Repr

/-- The machine has no fault: "the machine itself has no fault state" (R115), and no command is
refused, stalls or sticks (R104). So no constructor; nothing raises one. -/
inductive Fault where
deriving DecidableEq, Repr

/-- Why an instruction has no meaning. -/
inductive Refusal where
  /-- Raised by an arm of `exec` whose instruction is not modelled yet; safe. No arm is one. -/
  | notModelled (mnemonic : String)
deriving DecidableEq, Repr

/-- After reset: `CNT` = 0, `PHASE` = `RUN` (R35). `HDR` is unspecified there: 0x00, DESIGN CHOICE
(log 5), unsafe. `TRN` is unspecified: nothing listed (log 6). The model's own fields are empty or
0 (log 2, 4, 7, 14). -/
def State.reset : State :=
  { hdr := Vector.replicate Config.headerLen 0x00#8, cnt := 0#10, phase := .run, trn := [],
    sig := Signals.idle, inputs := [], resets := 0, freeEdges := 0 }

end Sys2Proof.Machine
end

