-- ==== Sys2Proof/Machine/Flags.lean ====
section
/-! DEFINITION. The boolean values of R28 and the dialect, as functions of the header. -/

namespace Sys2Proof.Machine

/-- "`true` when the bit is 1" (R12). -/
def bitSet (b : BitVec 1) : Bool := b == 1#1

/-- `vertical_mirroring`, byte 6 bit 0 (R70). -/
def verticalMirroring (h : Header) : Bool := h[6].getLsbD 0

/-- `battery`, byte 6 bit 1 (R71). No output depends on it. -/
def battery (h : Header) : Bool := h[6].getLsbD 1

/-- `trainer_flag`, byte 6 bit 2 (R72). -/
def trainerFlag (h : Header) : Bool := h[6].getLsbD 2

/-- `four_screen_vram`, byte 6 bit 3 (R73). -/
def fourScreenVram (h : Header) : Bool := h[6].getLsbD 3

/-- `(byte7 & 0b1100) >> 2` is `DIALECT_MARK` for `Extended`, anything else for `Legacy` (R66). -/
def dialect (h : Header) : FormatDialect :=
  if (h[7] &&& 0b1100#8) >>> 2 = Config.dialectMark.setWidth 8 then .extended else .legacy

end Sys2Proof.Machine
end

