-- ==== Sys2Proof/Machine/Ops.lean ====
section
/-! DEFINITION. The named operations over the trainer buffer, the registers and the signals. -/

namespace Sys2Proof.Machine

/-! ### The trainer buffer as a list of cells (R27, R37) -/

/-- The byte listed at an address; `none` where no PUSH has written since the last RESET. -/
def Memory.read : List Host.Cell → Nat → Option Byte
  | [], _ => none
  | (a, b) :: rest, x => if a = x then some b else Memory.read rest x

/-- `MemWrite(TRN, a, 1, v)`: the cell's place in the rising order. -/
def Memory.write : List Host.Cell → Nat → Byte → List Host.Cell
  | [], x, v => [(x, v)]
  | (a, b) :: rest, x, v =>
    if x < a then (x, v) :: (a, b) :: rest
    else if a = x then (x, v) :: rest
    else (a, b) :: Memory.write rest x v

/-- Every address from `lo` on, rising strictly, and below 512. -/
def Memory.risingFrom : Nat → List Host.Cell → Bool
  | _, [] => true
  | lo, (a, _) :: rest => lo ≤ a && a < Config.trainerLen && Memory.risingFrom (a + 1) rest

/-- The canonical form: addresses strictly rising, all of them addresses of TRN. An unlisted address
has no value, so no entry can equal what it reads as. -/
def Memory.wf (m : List Host.Cell) : Bool := Memory.risingFrom 0 m

/-- `TRN[a]`. A byte not written since the last RESET is a free value, for "unspecified after reset
(any value)" (R35, log 6). -/
def State.trnByte (s : State) (a : Nat) : Byte :=
  match Memory.read s.trn a with
  | some b => b
  | none => Config.freeTrnByte s.resets a

/-! ### Writes of the four elements -/

/-- `x[i] <- v` (R14). -/
def State.writeHdr (s : State) (i : Nat) (v : Byte) : State :=
  { s with hdr := s.hdr.setIfInBounds i v }

/-- `MemWrite(TRN, a, 1, v)` (R14). -/
def State.writeTrn (s : State) (a : Nat) (v : Byte) : State :=
  { s with trn := Memory.write s.trn a v }

/-- `pc <- t` (R14). -/
def State.setCnt (s : State) (t : BitVec 10) : State := { s with cnt := t }

/-- `PHASE <- p`. -/
def State.setPhase (s : State) (p : Phase) : State := { s with phase := p }

/-- What the outside does next. -/
def State.setInputs (s : State) (x : List Stimulus) : State := { s with inputs := x }

/-- Every register of HDR and every byte of TRN unspecified: free values of a new index (R35, R109;
log 6, 7). -/
def State.loseContents (s : State) : State :=
  { s with hdr := Vector.ofFn fun i => Config.freeHdrByte (s.resets + 1) i.val, trn := [],
           resets := s.resets + 1 }

/-! ### Signals -/

/-- Drive signals. -/
def State.drive (s : State) (f : Signals → Signals) : State := { s with sig := f s.sig }

/-- What the block holds has changed, so no signal evaluated before stands (log 13). -/
def State.clearSignals (s : State) : State := { s with sig := Signals.idle }

/-- `raise e` (R14, R115): the decode ends with that failure and no descriptor; no element of the
state changes. The one operation by which an operation fails. -/
def State.raise (s : State) (e : DecodeError) : State :=
  s.drive fun g => { g with result := some (.err e) }

/-- What CLR and RESET share, the way back from a failure too (R116): `CNT` = 0, `PHASE` = `RUN`
(R108, R109). -/
def State.restart (s : State) : State := ((s.setCnt 0#10).setPhase .run).clearSignals

end Sys2Proof.Machine
end

