-- ==== Sys2Proof/Machine/Bitfields.lean ====
section
/-! DEFINITION. The format detector and the bit-field extractor (41_bitfields.md). -/

namespace Sys2Proof.Machine

/-- The four timing values in the order of R75. -/
def regionTiming (t : BitVec 2) : RegionTiming :=
  match t with
  | 0#2 => .ntsc
  | 1#2 => .pal
  | 2#2 => .multiRegion
  | 3#2 => .dendy

/-- `DIALECT.E` (R67). -/
def execDialectE (s : State) : Host.Outcome State Fault Refusal :=
  .next (s.drive fun g => { g with dialect := some .extended })

/-- `DIALECT.L` (R68): `Legacy` whatever the marker. -/
def execDialectL (_mark : BitVec 2) (s : State) : Host.Outcome State Fault Refusal :=
  .next (s.drive fun g => { g with dialect := some .legacy })

/-- `VMIRROR` (R70). -/
def execVmirror (bit : BitVec 1) (s : State) : Host.Outcome State Fault Refusal :=
  .next (s.drive fun g => { g with verticalMirroring := some (bitSet bit) })

/-- `BATTERY` (R71): the internal flag only. -/
def execBattery (bit : BitVec 1) (s : State) : Host.Outcome State Fault Refusal :=
  .next (s.drive fun g => { g with battery := some (bitSet bit) })

/-- `TRAINERF` (R72): the internal flag only. -/
def execTrainerf (bit : BitVec 1) (s : State) : Host.Outcome State Fault Refusal :=
  .next (s.drive fun g => { g with trainerFlag := some (bitSet bit) })

/-- `FOURSCR` (R73). -/
def execFourscr (bit : BitVec 1) (s : State) : Host.Outcome State Fault Refusal :=
  .next (s.drive fun g => { g with fourScreen := some (bitSet bit) })

/-- `SUBMAP.E` (R74): extracted and dropped. -/
def execSubmapE (submapper : BitVec 4) (s : State) : Host.Outcome State Fault Refusal :=
  .next (s.drive fun g => { g with submapper := some submapper })

/-- `TIMING.E` (R75): extracted and dropped. -/
def execTimingE (timing : BitVec 2) (s : State) : Host.Outcome State Fault Refusal :=
  .next (s.drive fun g => { g with timing := some (regionTiming timing) })

end Sys2Proof.Machine
end

