-- ==== Sys2Proof/Machine/Commands.lean ====
section
/-! DEFINITION. The port commands and the reset (45_commands.md). -/

namespace Sys2Proof.Machine

/-- Where a PUSH in `RUN` stores its byte (R106): `HDR[CNT]`, or `TRN[CNT - 16]` when the trainer
flag is set, or nowhere. -/
def State.storePushed (s : State) (din : Byte) : State :=
  if s.cnt.toNat < Config.headerLen then s.writeHdr s.cnt.toNat din
  else if s.cnt.toNat < Config.trainerEnd ∧ trainerFlag s.hdr = true then
    s.writeTrn (s.cnt.toNat - Config.trainerBase) din
  else s

/-- `if CNT < 528: pc <- CNT + 1` (R106), 528 being `CNT_MAX`, and the signals of the shorter input stand no longer
(log 13); at 528 nothing changes. -/
def State.countPushed (s : State) : State :=
  if s.cnt.toNat < Config.cntMax then (s.setCnt (s.cnt + 1#10)).clearSignals else s

/-- `NOP` (R105). -/
def execNop (s : State) : Host.Outcome State Fault Refusal := .next s

/-- `PUSH` (R106). -/
def execPush (din : Byte) (s : State) : Host.Outcome State Fault Refusal :=
  match s.phase with
  | .run => .next (s.storePushed din).countPushed
  | .done => .next s

/-- `END` (R107). -/
def execEndInput (s : State) : Host.Outcome State Fault Refusal :=
  match s.phase with
  | .run => .next (s.setPhase .done)
  | .done => .next s

/-- `CLR` (R108): HDR and TRN keep their contents. -/
def execClr (s : State) : Host.Outcome State Fault Refusal := .next s.restart

/-- `RESET` (R109): HDR and TRN become unspecified. -/
def execReset (s : State) : Host.Outcome State Fault Refusal := .next s.restart.loseContents

end Sys2Proof.Machine
end

