-- ==== Sys2Proof/Machine/Mapper.lean ====
section
/-! DEFINITION. The mapper-number assembler (42_mapper.md). -/

namespace Sys2Proof.Machine

/-- `mapper(h)`, the group as one function with the masks and shifts of R76. -/
def mapper (h : Header) : MapperNumber :=
  let lo := ((h[6] &&& 0xF0#8) >>> 4).setWidth Config.mapperW
  let mid := (h[7] &&& 0xF0#8).setWidth Config.mapperW
  let hi := if dialect h = .extended then (h[8] &&& 0x0F#8).setWidth Config.mapperW <<< 8 else 0#Config.mapperW
  hi ||| mid ||| lo

/-- `MAPPER.E(h)`: `h[8][3:0] ++ h[7][7:4] ++ h[6][7:4]` (R78). -/
def mapperE (mapLo mapMid mapHi : BitVec 4) : MapperNumber := mapHi ++ mapMid ++ mapLo

/-- `MAPPER.L(h)`: `zext_12(h[7][7:4] ++ h[6][7:4])` (R77). -/
def mapperL (mapLo mapMid : BitVec 4) : MapperNumber := (mapMid ++ mapLo).setWidth Config.mapperW

/-- `MAPPER.E` (R78). -/
def execMapperE (mapLo mapMid mapHi : BitVec 4) (s : State) : Host.Outcome State Fault Refusal :=
  .next (s.drive fun g => { g with mapper := some (mapperE mapLo mapMid mapHi) })

/-- `MAPPER.L` (R77). -/
def execMapperL (mapLo mapMid : BitVec 4) (s : State) : Host.Outcome State Fault Refusal :=
  .next (s.drive fun g => { g with mapper := some (mapperL mapLo mapMid) })

end Sys2Proof.Machine
end

