-- ==== Sys2Proof/Machine/RomSize.lean ====
section
/-! DEFINITION. The ROM-size decoder and the exponent-multiplier unpacker (43_romsize.md). -/

namespace Sys2Proof.Machine

/-- `UNPACK(raw)`, exact in Nat (R81, R82). -/
def unpack (raw : RawSize) : Nat :=
  let multiplier := (raw &&& 0b11#12).toNat
  let exponent := ((raw &&& 0x0FF#12) >>> 2).toNat
  2 ^ exponent * (multiplier * 2 + 1)

/-- `UNPACK` on the 66-bit output (R82: every value fits). -/
def unpackUnits (raw : RawSize) : Units := BitVec.ofNat 66 (unpack raw)

/-- The test of R80, `raw[11:8] == EXP_SELECT`: the merged size is not a plain count. -/
def exponentForm (raw : RawSize) : Bool := raw >>> 8 == Config.expSelect.setWidth _

/-- Step (3) of R80: a merged size in exponent form is replaced by its unpacked value. -/
def reinterpret (raw : RawSize) : Units :=
  if exponentForm raw = true then unpackUnits raw else raw.setWidth 66

/-- The merged PRG size: byte 4, and in `Extended` `(byte9 & 0x0F) << 8` (R54). -/
def prgRaw (h : Header) : RawSize :=
  if dialect h = .extended then h[4].setWidth 12 ||| (h[9] &&& 0x0F#8).setWidth 12 <<< 8
  else h[4].setWidth 12

/-- The merged CHR size: byte 5, and in `Extended` `(byte9 & 0xF0) << 4` (R54). -/
def chrRaw (h : Header) : RawSize :=
  if dialect h = .extended then h[5].setWidth 12 ||| (h[9] &&& 0xF0#8).setWidth 12 <<< 4
  else h[5].setWidth 12

/-- `prg_units(h)`, the group as one function (R85). -/
def prgUnits (h : Header) : Units := reinterpret (prgRaw h)

/-- `chr_units(h)`, the group as one function (R89). -/
def chrUnits (h : Header) : Units := reinterpret (chrRaw h)

/-- `prg_exp`: the merged PRG size is in exponent form (R28). -/
def prgExp (h : Header) : Bool := exponentForm (prgRaw h)

/-- `chr_exp`: the merged CHR size is in exponent form (R28). -/
def chrExp (h : Header) : Bool := exponentForm (chrRaw h)

/-- `zext_66(b)`, a plain count of one byte (R86, R90). -/
def plainByte (b : Byte) : Units := b.setWidth 66

/-- `zext_66(hi ++ lo)`, a plain count of twelve bits (R87, R91). -/
def plainMerged (hi : BitVec 4) (lo : Byte) : Units := (hi ++ lo).setWidth 66

/-- `UNPACK(0xF ++ lo)` (R88, R92). -/
def expForm (lo : Byte) : Units := unpackUnits (Config.expSelect ++ lo)

/-- `PRGSIZE.EX` (R88): the internal flag `prg_exp` is true. -/
def execPrgsizeEX (prgLo : Byte) (s : State) : Host.Outcome State Fault Refusal :=
  .next (s.drive fun g => { g with prg := some (expForm prgLo), prgExp := some true })

/-- `PRGSIZE.EP` (R87). -/
def execPrgsizeEP (prgLo : Byte) (prgHi : BitVec 4) (s : State) :
    Host.Outcome State Fault Refusal :=
  .next (s.drive fun g => { g with prg := some (plainMerged prgHi prgLo) })

/-- `PRGSIZE.L` (R86). -/
def execPrgsizeL (prgLo : Byte) (s : State) : Host.Outcome State Fault Refusal :=
  .next (s.drive fun g => { g with prg := some (plainByte prgLo) })

/-- `CHRSIZE.EX` (R92): the internal flag `chr_exp` is true. -/
def execChrsizeEX (chrLo : Byte) (s : State) : Host.Outcome State Fault Refusal :=
  .next (s.drive fun g => { g with chr := some (expForm chrLo), chrExp := some true })

/-- `CHRSIZE.EP` (R91). -/
def execChrsizeEP (chrLo : Byte) (chrHi : BitVec 4) (s : State) :
    Host.Outcome State Fault Refusal :=
  .next (s.drive fun g => { g with chr := some (plainMerged chrHi chrLo) })

/-- `CHRSIZE.L` (R90). -/
def execChrsizeL (chrLo : Byte) (s : State) : Host.Outcome State Fault Refusal :=
  .next (s.drive fun g => { g with chr := some (plainByte chrLo) })

end Sys2Proof.Machine
end

