-- ==== Sys2Proof/Machine/Operands.lean ====
section
/-! DEFINITION. The operands of the operations that are not header fields: the input length and the
input bytes, in layer 1 and in the port machine. -/

namespace Sys2Proof.Machine

/-- `h[i] = B[i]` (R13). -/
def headerOf (B : Nat → Byte) : Header := Vector.ofFn fun i => B i.val

/-- The block `T` with `T[a] = B[16 + a]` (R95). -/
def trainerOf (B : Nat → Byte) : TrainerBlock := Vector.ofFn fun a => B (Config.trainerBase + a.val)

/-- The input length as far as the block can tell (R25, R63). -/
def State.inputLen (s : State) : Nat := s.cnt.toNat

/-- `P` of R110: `P[i] = HDR[i]` for `i < 16`, `P[16 + a] = TRN[a]`. -/
def State.inputByte (s : State) (i : Nat) : Byte :=
  if h : i < Config.headerLen then s.hdr[i] else s.trnByte (i - Config.trainerBase)

/-- An input given as a list: its byte at an offset. An offset past the end has no byte (R13); no
rule reads one, and the 0 here is never looked at. -/
def listByte (B : List Byte) (i : Nat) : Byte := B.getD i 0x00#8

end Sys2Proof.Machine
end

