-- ==== Sys2Proof/Machine/Trainer.lean ====
section
/-! DEFINITION. The trainer extractor and the descriptor assembly (44_trainer_assembly.md). -/

namespace Sys2Proof.Machine

/-- `TRAINER.COPY(n, B)` (R95): the block, or the failure attributed to the flag byte. -/
def trainerCopy (n : Nat) (B : Nat → Byte) : Except DecodeError (Option TrainerBlock) :=
  if n < Config.trainerBase + Config.trainerLen then
    .error (.invalidHeader Config.trainerErrIndex)
  else .ok (some (trainerOf B))

/-- `TRAINER.ABSENT(n, B)` (R94). -/
def trainerAbsent : Except DecodeError (Option TrainerBlock) := .ok none

/-- `ASSEMBLE(p, c, m, v, f, t)` (R97). -/
def assemble (p c : Units) (m : MapperNumber) (v f : Bool) (t : Option TrainerBlock) : Descriptor :=
  { prgRomSize := p, chrRomSize := c, mapperNumber := m, verticalMirroring := v,
    fourScreenVram := f, trainer := t }

/-- What a row of group TRAINER does with what it computed. -/
def finishTrainer (r : Except DecodeError (Option TrainerBlock)) (s : State) : State :=
  match r with
  | .error e => s.raise e
  | .ok t => s.drive fun g => { g with trainer := some t }

/-- `TRAINER.COPY` (R95) on the length and the bytes pushed (R96). -/
def execTrainerCopy (s : State) : Host.Outcome State Fault Refusal :=
  .next (finishTrainer (trainerCopy s.inputLen s.inputByte) s)

/-- `TRAINER.ABSENT` (R94). -/
def execTrainerAbsent (s : State) : Host.Outcome State Fault Refusal :=
  .next (finishTrainer trainerAbsent s)

/-- The descriptor of the six operands of ASSEMBLE, if every one of them has a value (R97). -/
def Signals.assembled (g : Signals) : Option Descriptor :=
  match g.prg, g.chr, g.mapper, g.verticalMirroring, g.fourScreen, g.trainer with
  | some p, some c, some m, some v, some f, some t => some (assemble p c m v f t)
  | _, _, _, _, _, _ => none

/-- `ASSEMBLE` (R97): "if all prior steps succeeded, assembly always succeeds". With an operand
missing, as after a failed TRAINER.COPY, nothing is assembled (R115: no partial descriptor; DESIGN
CHOICE, log 12). -/
def execAssemble (s : State) : Host.Outcome State Fault Refusal :=
  match s.sig.assembled with
  | some d => .next (s.drive fun g => { g with result := some (.ok d) })
  | none => .next s

end Sys2Proof.Machine
end

