-- ==== Sys2Proof/Machine/Validate.lean ====
section
/-! DEFINITION. The header validator: LENCHK and MAGIC (40_validate.md). -/

namespace Sys2Proof.Machine

/-- `LENCHK(n)` (R63): the failure, if any. -/
def lenchk (n : Nat) : Option DecodeError := if n < Config.headerLen then some .tooShort else none

/-- The first place, counted from `i`, at which two byte sequences differ. -/
def firstMismatch : List Byte → List Byte → Nat → Option Nat
  | b :: bs, m :: ms, i => if b ≠ m then some i else firstMismatch bs ms (i + 1)
  | _, _, _ => none

/-- `MAGIC(h)` (R64): the failure, if any. -/
def magicCheck (m0 m1 m2 m3 : Byte) : Option DecodeError :=
  match firstMismatch [m0, m1, m2, m3] Config.magic.toList 0 with
  | some i => some (.invalidHeader (Fin.ofNat 16 i))
  | none => none

/-- `LENCHK` on the input length (R63). -/
def execLenchk (s : State) : Host.Outcome State Fault Refusal :=
  match lenchk s.inputLen with
  | some e => .next (s.raise e)
  | none => .next (s.drive fun g => { g with lenPassed := true })

/-- `MAGIC` on header bytes 0 to 3 (R64). -/
def execMagic (m0 m1 m2 m3 : Byte) (s : State) : Host.Outcome State Fault Refusal :=
  match magicCheck m0 m1 m2 m3 with
  | some e => .next (s.raise e)
  | none => .next (s.drive fun g => { g with magicPassed := true })

end Sys2Proof.Machine
end

