-- ==== Sys2Proof/Machine/Dispatch.lean ====
section
/-! DEFINITION. One arm per operation of the table. -/

namespace Sys2Proof.Machine

def exec (i : Instr) (s : State) : Host.Outcome State Fault Refusal :=
  match i with
  | .lenchk => Sys2Proof.Machine.execLenchk s
  | .magic m0 m1 m2 m3 => Sys2Proof.Machine.execMagic m0 m1 m2 m3 s
  | .dialectE => Sys2Proof.Machine.execDialectE s
  | .dialectL mark => Sys2Proof.Machine.execDialectL mark s
  | .vmirror bit => Sys2Proof.Machine.execVmirror bit s
  | .battery bit => Sys2Proof.Machine.execBattery bit s
  | .trainerf bit => Sys2Proof.Machine.execTrainerf bit s
  | .fourscr bit => Sys2Proof.Machine.execFourscr bit s
  | .mapperE lo mid hi => Sys2Proof.Machine.execMapperE lo mid hi s
  | .mapperL lo mid => Sys2Proof.Machine.execMapperL lo mid s
  | .submapE sub => Sys2Proof.Machine.execSubmapE sub s
  | .timingE t => Sys2Proof.Machine.execTimingE t s
  | .prgsizeEX lo => Sys2Proof.Machine.execPrgsizeEX lo s
  | .prgsizeEP lo hi => Sys2Proof.Machine.execPrgsizeEP lo hi s
  | .prgsizeL lo => Sys2Proof.Machine.execPrgsizeL lo s
  | .chrsizeEX lo => Sys2Proof.Machine.execChrsizeEX lo s
  | .chrsizeEP lo hi => Sys2Proof.Machine.execChrsizeEP lo hi s
  | .chrsizeL lo => Sys2Proof.Machine.execChrsizeL lo s
  | .trainerCopy => Sys2Proof.Machine.execTrainerCopy s
  | .trainerAbsent => Sys2Proof.Machine.execTrainerAbsent s
  | .assemble => Sys2Proof.Machine.execAssemble s
  | .nop => Sys2Proof.Machine.execNop s
  | .push din => Sys2Proof.Machine.execPush din s
  | .endInput => Sys2Proof.Machine.execEndInput s
  | .clr => Sys2Proof.Machine.execClr s
  | .reset => Sys2Proof.Machine.execReset s

end Sys2Proof.Machine
end

