-- ==== Sys2Proof/Machine/Fetch.lean ====
section
/-! DEFINITION. Where a step finds its instruction, and how one is put there. -/

namespace Sys2Proof.Machine

/-- The word on the pins: `rst` = 1 has priority, whatever `cmd` holds (R51, R109). -/
def pinsWord (p : Pins) : Encoded := if p.rst = 1#1 then .rst p.rst else .cmd (p.cmd ++ p.din)

/-- The header word that group `g` reads: `h[i] = HDR[i]` "once `CNT >= 16`" (R13, DEDUCED, log 11);
LENCHK needs no header bit (R63). After a failure or a descriptor the decode has ended (R98). -/
def State.headerWord (s : State) (g : HdrGroup) : Option Encoded :=
  if s.sig.result.isSome then none
  else if g = .len ∨ Config.headerLen ≤ s.cnt.toNat then some (.hdr g s.hdr)
  else none

/-- The next word and the state with its stimulus taken. With no stimulus listed the edge has free
pins (log 4). -/
def fetch (s : State) : Option Encoded × State :=
  match s.inputs with
  | [] => (some (pinsWord (Config.freePins s.freeEdges)), { s with freeEdges := s.freeEdges + 1 })
  | .edge p :: rest => (some (pinsWord p), s.setInputs rest)
  | .evaluate g :: rest => (s.headerWord g, s.setInputs rest)

/-- Pins that carry a command word. -/
def cmdPins (w : CmdWord) : Pins :=
  { rst := 0#1, cmd := w.extractLsb' 8 2, din := w.extractLsb' 0 8 }

/-- The state in which `e` is the very next word fetched (log 14). A command or reset word goes on
the pins of the next edge. A header goes into HDR, with `CNT` at least 16 so that it is complete,
the signals of the header before it gone, and its group the next to be evaluated. -/
def State.place (s : State) (e : Encoded) : State :=
  match e with
  | .cmd w => s.setInputs (.edge (cmdPins w) :: s.inputs)
  | .rst b => s.setInputs (.edge { rst := b, cmd := 0#2, din := 0#8 } :: s.inputs)
  | .hdr g h =>
    { s with hdr := h, cnt := if s.cnt.toNat < Config.headerLen then BitVec.ofNat 10 Config.headerLen else s.cnt,
             sig := Signals.idle, inputs := .evaluate g :: s.inputs }

/-- `place` on a word numbered as `opcode_table.json` numbers it; a number that is no word of any
format is placed nowhere. -/
def State.placeTableWord (s : State) (nbits w : Nat) : State :=
  match encodedOfTableWord nbits w with
  | .ok e => s.place e
  | .error _ => s

end Sys2Proof.Machine
end

