-- ==== Sys2Proof/Machine/DecodeInput.lean ====
section
/-! DEFINITION. The function `Decode(n, B)`: the whole of layer 1 (R98). -/

namespace Sys2Proof.Machine

/-- The TRAINER line of R98: `t = if tf then TRAINER.COPY(n, B) else TRAINER.ABSENT(n, B)`. -/
def trainerField (n : Nat) (B : Nat → Byte) : Except DecodeError (Option TrainerBlock) :=
  if trainerFlag (headerOf B) = true then trainerCopy n B else trainerAbsent

/-- `Decode(n, B)` (R98), total and deterministic: length, signature, extractions, trainer,
assembly; the first failure ends it. `b`, `s` and `r` of R98 are dropped there and not named
here. -/
def decodeInput (n : Nat) (B : Nat → Byte) : DecodeResult :=
  match lenchk n with
  | some e => .err e
  | none =>
    let h := headerOf B
    match magicCheck h[0] h[1] h[2] h[3] with
    | some e => .err e
    | none =>
      match trainerField n B with
      | .error e => .err e
      | .ok t =>
        .ok (assemble (prgUnits h) (chrUnits h) (mapper h) (verticalMirroring h)
          (fourScreenVram h) t)

/-- `Decode` of an input given as a list. -/
def decodeList (B : List Byte) : DecodeResult := decodeInput B.length (listByte B)

/-- The byte size of the PRG-ROM region, which the CONSUMER computes (R19, R84). -/
def Descriptor.prgBytes (d : Descriptor) : Nat := d.prgRomSize.toNat * Config.prgUnit

/-- The byte size of the CHR-ROM region, which the CONSUMER computes (R19, R84). -/
def Descriptor.chrBytes (d : Descriptor) : Nat := d.chrRomSize.toNat * Config.chrUnit

end Sys2Proof.Machine
end

