-- ==== Sys2Proof/Machine/Outputs.lean ====
section
/-! DEFINITION. The output ports, as functions of the state and of `trn_addr` (R31, R32, R110). -/

namespace Sys2Proof.Machine

/-- The output ports (R31). -/
structure Outputs where
  status : BitVec 8
  prgRomSize : Units
  chrRomSize : Units
  mapperNumber : MapperNumber
  verticalMirroring : BitVec 1
  fourScreenVram : BitVec 1
  trainerPresent : BitVec 1
  trnData : Byte
deriving DecidableEq, Repr

/-- A status word with every other output 0 (R110). -/
def Outputs.only (status : BitVec 8) : Outputs :=
  { status := status, prgRomSize := 0#66, chrRomSize := 0#66, mapperNumber := 0,
    verticalMirroring := 0#1, fourScreenVram := 0#1, trainerPresent := 0#1, trnData := 0x00#8 }

/-- The status word of a failure: `0xA0`, or `0xB0 | i` (R112). -/
def errorStatus : DecodeError → BitVec 8
  | .tooShort => 0xA0#8
  | .invalidHeader i => 0xB0#8 ||| BitVec.ofNat 8 i.val

/-- What the ports show of a finished decode; `trn` is the byte at `trn_addr` (R110). -/
def Outputs.ofResult (r : DecodeResult) (trn : Byte) : Outputs :=
  match r with
  | .err e => Outputs.only (errorStatus e)
  | .ok d =>
    { status := 0xC0#8, prgRomSize := d.prgRomSize, chrRomSize := d.chrRomSize,
      mapperNumber := d.mapperNumber,
      verticalMirroring := BitVec.ofBool d.verticalMirroring,
      fourScreenVram := BitVec.ofBool d.fourScreenVram,
      trainerPresent := BitVec.ofBool d.trainer.isSome,
      trnData := if d.trainer.isSome then trn else 0x00#8 }

/-- `R = Decode(CNT, P)` (R110). -/
def State.decoded (s : State) : DecodeResult := decodeInput s.inputLen s.inputByte

/-- The outputs (R110). They read the four elements alone. -/
def outputs (s : State) (trnAddr : BitVec 9) : Outputs :=
  match s.phase with
  | .run => Outputs.only 0x00#8
  | .done => Outputs.ofResult s.decoded (s.trnByte trnAddr.toNat)

end Sys2Proof.Machine
end

