-- ==== Sys2Proof/Machine/Step.lean ====
section
/-! DEFINITION. One step. -/

namespace Sys2Proof.Machine

/-- One step (R104): take the next stimulus, decode its word, run the operation. A group none of
whose rows matches does nothing (R56). -/
def step (s : State) : Host.Outcome State Fault Refusal :=
  match fetch s with
  | (none, t) => .next t
  | (some e, t) =>
    match decode e with
    | .ok i => exec i t
    | .error _ => .next t

/-- `s` with the instruction of `nbits` bits and value `w` where the next step fetches. -/
def State.withFetchWord (s : State) (nbits w : Nat) : State := s.placeTableWord nbits w

end Sys2Proof.Machine
end

