-- ==== Sys2Proof/Safety.lean ====
section
/-! DEFINITION. The terms that claims are stated in: what every reachable state satisfies, what the
ports can see of a state, and runs of commands. -/

namespace Sys2Proof

/-- Bytes 0 to 3 of the header are `0x4E 0x45 0x53 0x1A` (R64). -/
abbrev HasSignature (h : Header) : Prop :=
  h[0] = 0x4E#8 ∧ h[1] = 0x45#8 ∧ h[2] = 0x53#8 ∧ h[3] = 0x1A#8

/-- `h[7][3:2] == 0b10` (R66). -/
abbrev MarkedExtended (h : Header) : Prop := h[7].extractLsb' 2 2 = 0b10#2

/-- Neither CLR nor RESET: the commands that leave a finished decode alone (R21). -/
def Instr.startsNoDecode (i : Instr) : Prop := i ≠ .clr ∧ i ≠ .reset

/-- The operations of format HDR, which are layer 1 (R2, R56). -/
def Instr.isLayer1 (i : Instr) : Prop :=
  match encode i with
  | .hdr _ _ => True
  | .cmd _ => False
  | .rst _ => False

end Sys2Proof

namespace Sys2Proof.Machine

/-- The header is complete and has its signature: what LENCHK and MAGIC establish (R62). -/
def State.Validated (s : State) : Prop := 16 ≤ s.inputLen ∧ signatureOk s.hdr = true

/-- Every signal that has a value has the value of its function of the present contents (R28: "each
is a pure function of `HDR`"). -/
structure State.SignalsAgree (s : State) : Prop where
  lenPassed : s.sig.lenPassed = true → 16 ≤ s.inputLen
  magicPassed : s.sig.magicPassed = true → s.Validated
  dialect : ∀ d, s.sig.dialect = some d → s.Validated ∧ d = dialect s.hdr
  verticalMirroring : ∀ b, s.sig.verticalMirroring = some b →
    s.Validated ∧ b = verticalMirroring s.hdr
  battery : ∀ b, s.sig.battery = some b → s.Validated ∧ b = battery s.hdr
  trainerFlag : ∀ b, s.sig.trainerFlag = some b → s.Validated ∧ b = trainerFlag s.hdr
  fourScreen : ∀ b, s.sig.fourScreen = some b → s.Validated ∧ b = fourScreenVram s.hdr
  mapper : ∀ m, s.sig.mapper = some m → s.Validated ∧ m = mapper s.hdr
  submapper : ∀ x, s.sig.submapper = some x →
    s.Validated ∧ Machine.dialect s.hdr = .extended ∧ x = s.hdr[8].extractLsb' 4 4
  timing : ∀ t, s.sig.timing = some t →
    s.Validated ∧ Machine.dialect s.hdr = .extended ∧ t = regionTiming (s.hdr[12].extractLsb' 0 2)
  prgExp : ∀ b, s.sig.prgExp = some b → s.Validated ∧ b = prgExp s.hdr
  prg : ∀ p, s.sig.prg = some p → s.Validated ∧ p = prgUnits s.hdr
  chrExp : ∀ b, s.sig.chrExp = some b → s.Validated ∧ b = chrExp s.hdr
  chr : ∀ c, s.sig.chr = some c → s.Validated ∧ c = chrUnits s.hdr
  trainer : ∀ t, s.sig.trainer = some t →
    s.Validated ∧ trainerField s.inputLen s.inputByte = .ok t
  result : ∀ r, s.sig.result = some r → r = s.decoded

/-- What every step keeps: `CNT` is at most 528 (R33 (a)), TRN is in canonical form with addresses
below 512 (R37), and no signal is stale. -/
structure State.Inv (s : State) : Prop where
  cntInRange : s.cnt.toNat ≤ 528
  trnCanonical : Memory.wf s.trn = true
  signalsAgree : s.SignalsAgree

/-- Two states hold the same `HDR`, `CNT`, `PHASE` and `TRN`, the whole state of the block (R23). -/
structure State.SameBlock (s t : State) : Prop where
  hdr : s.hdr = t.hdr
  cnt : s.cnt = t.cnt
  phase : s.phase = t.phase
  trn : ∀ a, s.trnByte a = t.trnByte a

/-- The model's own fields other than the signals are equal: the stimuli to come and the counters of
free values (log 3, 4, 7). -/
structure State.SameOwn (s t : State) : Prop where
  inputs : s.inputs = t.inputs
  resets : s.resets = t.resets
  freeEdges : s.freeEdges = t.freeEdges

/-- The command that pins carry at an edge; NOP, which changes nothing, counts as none (R105). -/
def commandOf (p : Pins) : Option Instr :=
  match decode (pinsWord p) with
  | .ok .nop => none
  | .ok i => some i
  | .error _ => none

/-- The commands of a sequence of edges, its NOPs left out (R111: "with any number of `NOP` anywhere
in between"). -/
def commandsOf (ps : List Pins) : List Instr := ps.filterMap commandOf

/-- The state with the given edges as all that the outside does next. -/
def State.givenEdges (s : State) (ps : List Pins) : State :=
  s.setInputs (ps.map .edge)

/-- A run over exactly the given edges, through the machine's own step. -/
def runEdges (ps : List Pins) (s : State) : Host.Outcome State Fault Refusal :=
  Host.Core.run Sys2Proof.core ps.length (s.givenEdges ps)

/-- The command sequence of one decode of `bytes` (R122): a start, the bytes in order, the end. -/
def decodeCommands (start : Instr) (bytes : List Byte) : List Instr :=
  start :: (bytes.map Instr.push ++ [.endInput])

end Sys2Proof.Machine
end

