-- ==== Sys2Proof/Certificates/Slice0/Obligations.lean ====
section
/-! DEFINITION. The statements for the provers. -/

open Sys2Proof Sys2Proof.Machine

/-! ### Encodings -/

/-- Decoding the encoding of a well-formed instruction gives it back, every operand at every
value its row admits. -/
def Obligations.EncodeThenDecodeGivesTheInstruction : Prop :=
  ∀ i : Instr, i.WellFormed → decode (encode i) = .ok i

/-- Whatever word decodes, decodes to a well-formed instruction, whose own encoding stands for it
too. -/
def Obligations.DecodedInstructionsAreWellFormed : Prop :=
  ∀ (e : Encoded) (i : Instr), decode e = .ok i → i.WellFormed ∧ decode (encode i) = .ok i

/-- R56: of the rows of a group whose pattern a header word fits, the one with the lowest priority
number is the one the decoder reads, and it reads none when none fits. MAGIC, which is selected for
every header (R57), apart. -/
def Obligations.HeaderRowIsTheTablesLowestPriorityMatch : Prop :=
  ∀ (g : HdrGroup) (w : HWord), g ≠ .magic →
    (match decode (.hdr g (headerOfWord w)) with
     | .ok i => some i.mnemonic
     | .error _ => none) = (tableRow g w).map Row.mnemonic

/-- R57: LENCHK and MAGIC are selected for every header, whatever its bytes. R56: another group
selects nothing exactly when the signature is wrong, or the header is `Legacy` and the group is
SUBMAP or TIMING. -/
def Obligations.GroupsThatSelectNothing : Prop :=
  ∀ (g : HdrGroup) (h : Header),
    decode (.hdr g h) = .error (.noRow g) ↔
      (¬ HasSignature h ∧ g ≠ .len ∧ g ≠ .magic) ∨
      (HasSignature h ∧ ¬ MarkedExtended h ∧ (g = .submap ∨ g = .timing))

/-- R51: `rst` = 1 is RESET whatever `cmd` and `din` hold; with `rst` = 0 the command word is
`cmd ++ din`, the four codes of `cmd` are NOP, PUSH, END and CLR, `din` is the operand of PUSH, and the
other three ignore it. -/
def Obligations.PinsCarryTheCommandTheirCodeNames : Prop :=
  ∀ p : Pins,
    (p.rst = 1#1 → decode (pinsWord p) = .ok .reset) ∧
    (p.rst = 0#1 → ∃ w : CmdWord, pinsWord p = .cmd w ∧ w.toNat = p.cmd.toNat * 256 + p.din.toNat) ∧
    (p.rst = 0#1 → p.cmd = 0b00#2 → decode (pinsWord p) = .ok .nop) ∧
    (p.rst = 0#1 → p.cmd = 0b01#2 → decode (pinsWord p) = .ok (.push p.din)) ∧
    (p.rst = 0#1 → p.cmd = 0b10#2 → decode (pinsWord p) = .ok .endInput) ∧
    (p.rst = 0#1 → p.cmd = 0b11#2 → decode (pinsWord p) = .ok .clr)

/-- A few words written out from R49, R50 and R51. -/
def Obligations.WrittenOutWordsDecode : Prop :=
  decodeTableWord 16 0b01_01001110 = some (.push 0x4E#8) ∧
  decodeTableWord 16 0b10_00000000 = some .endInput ∧
  decodeTableWord 8 0b1 = some .reset ∧
  decode (.hdr .mapper (headerOfWord 0x0A38E00000_1A53454E#128)) =
    .ok (.mapperE 0xE#4 0x3#4 0xA#4) ∧
  decode (.hdr .prgsize (headerOfWord 0x0F0008000005_1A53454E#128)) = .ok (.prgsizeEX 0x05#8) ∧
  decode (.hdr .chrsize (headerOfWord 0x300008001034_1A53454E#128)) =
    .ok (.chrsizeEP 0x10#8 0x3#4) ∧
  decode (.hdr .timing (headerOfWord 0x010000000008000000_1A53454E#128)) = .ok (.timingE 0b01#2)

/-! ### The step -/

/-- A step at a rising edge runs the instruction that the pins carry (R104): the pins listed first,
or, with nothing listed, the free pins of that edge (log 4), and then the next edge without listed
pins has the next free pins. -/
def Obligations.StepRunsTheCommandOnThePins : Prop :=
  ∀ (s : State) (p : Pins) (i : Instr), decode (pinsWord p) = .ok i →
    (∀ rest, s.inputs = .edge p :: rest → step s = exec i { s with inputs := rest }) ∧
    (s.inputs = [] → p = Config.freePins s.freeEdges →
      step s = exec i { s with freeEdges := s.freeEdges + 1 })

/-- A step on a request to evaluate a group runs the row that the group selects on the header in
`HDR`, once the header is complete (LENCHK needs none) and the decode has not ended; otherwise, or
when the group selects no row, it does nothing (the model's choice, log 1, 11, 13; R56). -/
def Obligations.StepRunsTheRowAGroupSelects : Prop :=
  ∀ (s : State) (g : HdrGroup) (rest : List Stimulus), s.inputs = .evaluate g :: rest →
    (∀ i, s.sig.result = none → (g = .len ∨ 16 ≤ s.cnt.toNat) →
      decode (.hdr g s.hdr) = .ok i → step s = exec i { s with inputs := rest }) ∧
    (s.sig.result ≠ none → step s = .next { s with inputs := rest }) ∧
    (g ≠ .len → s.cnt.toNat < 16 → step s = .next { s with inputs := rest }) ∧
    (∀ r, decode (.hdr g s.hdr) = .error r → step s = .next { s with inputs := rest })

/-- R104: the step is total, and every operation is accepted in every state. -/
def Obligations.EveryStepAnswersANextState : Prop :=
  (∀ s : State, ∃ t, step s = .next t) ∧ ∀ (i : Instr) (s : State), ∃ t, exec i s = .next t

/-- A word placed for the next step is what that step runs, and the stimuli after it stay (the
model's choice of how a program comes to run, log 14). -/
def Obligations.PlacedWordRunsAtTheNextStep : Prop :=
  ∀ (s : State) (nbits w : Nat) (i : Instr), decodeTableWord nbits w = some i →
    ∃ t, step (s.withFetchWord nbits w) = exec i t ∧ t.inputs = s.inputs

/-! ### Port commands -/

/-- R105: `cmd` = `0b00` is NOP, whatever `din` holds, and NOP changes nothing, in every state. -/
def Obligations.NopChangesNothing : Prop :=
  (∀ din, decode (pinsWord { rst := 0#1, cmd := 0b00#2, din := din }) = .ok .nop) ∧
  ∀ s : State, exec .nop s = .next s

/-- R106: in `RUN`, PUSH stores its byte in `HDR[CNT]` below 16, in `TRN[CNT - 16]` from 16 to 527
when `HDR[6]` bit 2 is 1, and nowhere otherwise; it counts below 528; every other register and every
other byte is unchanged. In `DONE` it changes nothing. It completes in every state. Its code is `0b01`. -/
def Obligations.PushStoresTheByteAndCounts : Prop :=
  (∀ din, decode (pinsWord { rst := 0#1, cmd := 0b01#2, din := din }) = .ok (.push din)) ∧
  ∀ (s : State) (din : Byte), ∃ t, exec (.push din) s = .next t ∧
    t.phase = s.phase ∧ t.SameOwn s ∧
    (s.phase = .done → t = s) ∧
    (s.phase = .run → 528 ≤ s.cnt.toNat → t = s) ∧
    (s.phase = .run → s.cnt.toNat < 528 → t.cnt.toNat = s.cnt.toNat + 1) ∧
    (s.phase = .run → s.cnt.toNat < 16 →
      (∀ (k : Nat) (hk : k < 16), t.hdr[k] = if k = s.cnt.toNat then din else s.hdr[k]) ∧
      ∀ a, t.trnByte a = s.trnByte a) ∧
    (s.phase = .run → 16 ≤ s.cnt.toNat → s.cnt.toNat < 528 →
      t.hdr = s.hdr ∧
      (s.hdr[6].getLsbD 2 = true →
        ∀ a, t.trnByte a = if a = s.cnt.toNat - 16 then din else s.trnByte a) ∧
      (s.hdr[6].getLsbD 2 = false → ∀ a, t.trnByte a = s.trnByte a))

/-- R107: END sets `PHASE` to `DONE`; in `DONE` it changes nothing; `HDR`, `CNT` and `TRN` stay. From
there on the outputs show `Decode` of the bytes pushed. Its code is `0b10`, whatever `din` holds. -/
def Obligations.EndShowsTheDecode : Prop :=
  (∀ din, decode (pinsWord { rst := 0#1, cmd := 0b10#2, din := din }) = .ok .endInput) ∧
  ∀ s : State, exec .endInput s = .next { s with phase := .done } ∧
    (s.phase = .done → exec .endInput s = .next s) ∧
    ∀ a, outputs { s with phase := .done } a =
      Outputs.ofResult (decodeInput s.cnt.toNat s.inputByte) (s.trnByte a.toNat)

/-- R108: CLR sets `CNT` to 0 and `PHASE` to `RUN` from every state; `HDR` and `TRN` keep their
contents; every output is then 0. Its code is `0b11`, whatever `din` holds. -/
def Obligations.ClrRestartsAndKeepsContents : Prop :=
  (∀ din, decode (pinsWord { rst := 0#1, cmd := 0b11#2, din := din }) = .ok .clr) ∧
  ∀ s : State, ∃ t, exec .clr s = .next t ∧ t.cnt = 0#10 ∧ t.phase = .run ∧ t.hdr = s.hdr ∧
    (∀ a, t.trnByte a = s.trnByte a) ∧ t.SameOwn s ∧
    ∀ a, outputs t a = Outputs.only 0x00#8

/-- R109: RESET sets `CNT` to 0 and `PHASE` to `RUN` from every state, and every output is then 0;
of `HDR` and `TRN` nothing is said. It is what `rst` = 1 asks for, whatever `cmd` and `din` hold. -/
def Obligations.ResetRestarts : Prop :=
  (∀ cmd din, decode (pinsWord { rst := 1#1, cmd := cmd, din := din }) = .ok .reset) ∧
  ∀ s : State, ∃ t, exec .reset s = .next t ∧ t.cnt = 0#10 ∧ t.phase = .run ∧
    t.inputs = s.inputs ∧ t.freeEdges = s.freeEdges ∧
    ∀ a, outputs t a = Outputs.only 0x00#8

/-- A command that changes what the block holds leaves no signal evaluated before it standing, and
the other commands leave every signal as it was (the model's choice, log 13). -/
def Obligations.CommandsClearTheSignalsTheyMakeStale : Prop :=
  ∀ (s t : State) (din : Byte),
    (exec .clr s = .next t → t.sig = Signals.idle) ∧
    (exec .reset s = .next t → t.sig = Signals.idle) ∧
    (exec (.push din) s = .next t →
      t.sig = if s.phase = .run ∧ s.cnt.toNat < 528 then Signals.idle else s.sig) ∧
    (exec .endInput s = .next t → t.sig = s.sig) ∧
    (exec .nop s = .next t → t.sig = s.sig)

/-- R24: a header register changes only by RESET or by a PUSH in `RUN` with `CNT` < 16, and then it
is `HDR[CNT]` and takes the byte pushed. -/
def Obligations.OnlyPushAndResetWriteHdr : Prop :=
  ∀ (i : Instr) (s t : State) (k : Nat) (hk : k < 16), exec i s = .next t →
    t.hdr[k] ≠ s.hdr[k] →
    i = .reset ∨
      ∃ din, i = .push din ∧ s.phase = .run ∧ s.cnt.toNat = k ∧ t.hdr[k] = din

/-- R25: `CNT` changes only to 0 by CLR or RESET, or by 1 by a PUSH in `RUN` below 528. -/
def Obligations.OnlyPushClrAndResetMoveCnt : Prop :=
  ∀ (i : Instr) (s t : State), exec i s = .next t → t.cnt ≠ s.cnt →
    ((i = .clr ∨ i = .reset) ∧ t.cnt = 0#10) ∨
      ∃ din, i = .push din ∧ s.phase = .run ∧ s.cnt.toNat < 528 ∧ t.cnt.toNat = s.cnt.toNat + 1

/-- R26: `PHASE` becomes `DONE` only by END in `RUN`, and `RUN` only by CLR or RESET. -/
def Obligations.OnlyEndClrAndResetMovePhase : Prop :=
  ∀ (i : Instr) (s t : State), exec i s = .next t → t.phase ≠ s.phase →
    (i = .endInput ∧ s.phase = .run ∧ t.phase = .done) ∨
      ((i = .clr ∨ i = .reset) ∧ t.phase = .run)

/-- R27, R37: a trainer byte changes only by RESET or by a PUSH in `RUN` with `CNT` 16 to 527 and
`HDR[6]` bit 2 set, and then it is `TRN[CNT - 16]` and takes the byte pushed. -/
def Obligations.OnlyPushAndResetWriteTrn : Prop :=
  ∀ (i : Instr) (s t : State) (a : Nat), exec i s = .next t → t.trnByte a ≠ s.trnByte a →
    i = .reset ∨
      ∃ din, i = .push din ∧ s.phase = .run ∧ 16 ≤ s.cnt.toNat ∧ s.cnt.toNat < 528 ∧
        s.hdr[6].getLsbD 2 = true ∧ a = s.cnt.toNat - 16 ∧ t.trnByte a = din

/-! ### Outputs -/

/-- R110: the outputs, with `R = Decode(CNT, P)`, `P[i] = HDR[i]` below 16 and `P[16 + a] = TRN[a]`;
`Decode` reads `P[i]` only for `i < CNT`, and beyond the header only when `HDR[6]` bit 2 is 1; the
index of a failure is 0, 1, 2, 3 or 6. -/
def Obligations.OutputsShowDecodeOfTheBytesPushed : Prop :=
  ∀ (s : State) (a : BitVec 9),
    (s.phase = .run → outputs s a = Outputs.only 0x00#8) ∧
    (s.phase = .done →
      (decodeInput s.cnt.toNat s.inputByte = .err .tooShort → outputs s a = Outputs.only 0xA0#8) ∧
      (∀ i, decodeInput s.cnt.toNat s.inputByte = .err (.invalidHeader i) →
        outputs s a = Outputs.only (0xB0#8 ||| BitVec.ofNat 8 i.val)) ∧
      (∀ d, decodeInput s.cnt.toNat s.inputByte = .ok d →
        (outputs s a).status = 0xC0#8 ∧
        (outputs s a).prgRomSize = d.prgRomSize ∧
        (outputs s a).chrRomSize = d.chrRomSize ∧
        (outputs s a).mapperNumber = d.mapperNumber ∧
        (outputs s a).verticalMirroring = (if d.verticalMirroring then 1#1 else 0#1) ∧
        (outputs s a).fourScreenVram = (if d.fourScreenVram then 1#1 else 0#1) ∧
        (outputs s a).trainerPresent = (if d.trainer = none then 0#1 else 1#1) ∧
        (outputs s a).trnData = (if d.trainer = none then 0x00#8 else s.trnByte a.toNat))) ∧
    (∀ (k : Nat) (hk : k < 16), s.inputByte k = s.hdr[k]) ∧
    (∀ x, x < 512 → s.inputByte (16 + x) = s.trnByte x) ∧
    (∀ Q : Nat → Byte, (∀ i, i < s.cnt.toNat → Q i = s.inputByte i) →
      decodeInput s.cnt.toNat Q = decodeInput s.cnt.toNat s.inputByte) ∧
    (s.hdr[6].getLsbD 2 = false → ∀ Q : Nat → Byte, (∀ i, i < 16 → Q i = s.inputByte i) →
      decodeInput s.cnt.toNat Q = decodeInput s.cnt.toNat s.inputByte) ∧
    ∀ i, decodeInput s.cnt.toNat s.inputByte = .err (.invalidHeader i) → i ∈ [0, 1, 2, 3, 6]

/-- The spec's own inference (`status` in 10_state.md): "No other value can appear" than these
eight. -/
def Obligations.StatusWordIsOneOfEight : Prop :=
  ∀ (s : State) (a : BitVec 9),
    (outputs s a).status ∈
      [0x00#8, 0xC0#8, 0xA0#8, 0xB0#8, 0xB1#8, 0xB2#8, 0xB3#8, 0xB6#8]

/-- R115: without success (`status.OK` = 0) every descriptor output, `trainer_present` and `trn_data`
are 0; and `DONE` = 1 exactly in `PHASE` `DONE`, where exactly one of `OK` and `ERR` is 1. -/
def Obligations.NoDescriptorWithoutSuccess : Prop :=
  ∀ (s : State) (a : BitVec 9),
    ((outputs s a).status.getLsbD 6 = false → outputs s a = Outputs.only (outputs s a).status) ∧
    ((outputs s a).status.getLsbD 7 = true ↔ s.phase = .done) ∧
    (outputs s a).status.getLsbD 7 =
      ((outputs s a).status.getLsbD 6 ^^ (outputs s a).status.getLsbD 5)

/-- In `DONE` no sequence of commands without CLR and RESET changes any of the four elements, so every
output is constant. The spec's own inference from its commands (10_state.md: "once `PHASE = DONE`, no
command but `CLR` or reset changes any state"), for "the descriptor is immutable once returned". -/
def Obligations.FinishedDecodeIsFrozen : Prop :=
  ∀ (s : State) (ps : List Pins), s.phase = .done →
    (∀ i ∈ commandsOf ps, i.startsNoDecode) →
    ∃ t, runEdges ps s = .next t ∧ t.SameBlock s ∧ ∀ a, outputs t a = outputs s a

/-- The spec's own invariants (b) and (c) of 10_state.md ("These hold in every reachable state"): after
CLR or RESET and the PUSHes of a byte sequence, NOPs anywhere between, `CNT`
is its length saturated at 528, `HDR` holds its first 16 bytes, and, when `HDR[6]` bit 2 is 1, `TRN`
holds the bytes from offset 16 on. -/
def Obligations.PushedBytesAreHeld : Prop :=
  ∀ (s : State) (bytes : List Byte) (ps : List Pins) (start : Instr),
    (start = .clr ∨ start = .reset) → commandsOf ps = start :: bytes.map Instr.push →
    ∃ t, runEdges ps s = .next t ∧ t.phase = .run ∧ t.cnt.toNat = min bytes.length 528 ∧
      (∀ (k : Nat) (hk : k < 16), k < bytes.length → bytes[k]? = some t.hdr[k]) ∧
      (16 < bytes.length → t.hdr[6].getLsbD 2 = true →
        ∀ a, a < 512 → 16 + a < bytes.length → bytes[16 + a]? = some (t.trnByte a))

/-- The spec's own inference (45_commands.md: "The port machine computes `Decode`"): from any state, CLR or RESET, then PUSHes of all of `bytes` or of any prefix of at least
528 of them, then END, with NOPs anywhere between, and then any commands without CLR and RESET: the
outputs are those of `Decode` of `bytes`. -/
def Obligations.PortMachineComputesDecode : Prop :=
  ∀ (s : State) (bytes : List Byte) (j : Nat) (ps after : List Pins) (start : Instr),
    (start = .clr ∨ start = .reset) → min bytes.length 528 ≤ j → j ≤ bytes.length →
    commandsOf ps = decodeCommands start (bytes.take j) →
    (∀ i ∈ commandsOf after, i.startsNoDecode) →
    ∃ t, runEdges (ps ++ after) s = .next t ∧
      ∀ a : BitVec 9, outputs t a =
        Outputs.ofResult (decodeInput bytes.length (listByte bytes))
          (listByte bytes (16 + a.toNat))

/-- The spec's own inference (10_state.md: "the reset contents of `HDR` and `TRN`, and what an earlier
decode left in them, can never reach an output"): after CLR or RESET, the same commands give the same outputs from any two states: neither the
reset contents of `HDR` and `TRN` nor what an earlier decode left in them ever reaches an output. -/
def Obligations.EarlierContentsNeverReachAnOutput : Prop :=
  ∀ (s t : State) (ps : List Pins) (start : Instr) (later : List Instr),
    (start = .clr ∨ start = .reset) → commandsOf ps = start :: later →
    ∃ s' t', runEdges ps s = .next s' ∧ runEdges ps t = .next t' ∧
      ∀ a, outputs s' a = outputs t' a

/-- The signals the model keeps (log 2) reach no port and no element of the state: from two states
with the same four elements, the same commands give the same outputs, whatever the signals. -/
def Obligations.SignalsNeverReachThePorts : Prop :=
  ∀ (s t : State) (ps : List Pins), s.SameBlock t → s.resets = t.resets →
    ∃ s' t', runEdges ps s = .next s' ∧ runEdges ps t = .next t' ∧ s'.SameBlock t' ∧
      ∀ a, outputs s' a = outputs t' a

/-! ### Layer 1: the operations -/

/-- R62 of the validator, and the same of every operation of layer 1: it writes none of the four
elements, and none of the model's own fields but the signals. -/
def Obligations.LayerOneWritesNoElement : Prop :=
  ∀ (i : Instr) (s t : State), i.isLayer1 → exec i s = .next t → t.SameBlock s ∧ t.SameOwn s

/-- R63: LENCHK is selected for every input; it raises `TooShort` when the input has fewer than 16
bytes, and passes otherwise. It changes nothing else, and completes in every state. -/
def Obligations.LenchkTestsTheInputLength : Prop :=
  (∀ h, decode (.hdr .len h) = .ok .lenchk) ∧
  ∀ s : State,
    (s.cnt.toNat < 16 →
      exec .lenchk s = .next { s with sig := { s.sig with result := some (.err .tooShort) } }) ∧
    (16 ≤ s.cnt.toNat →
      exec .lenchk s = .next { s with sig := { s.sig with lenPassed := true } })

/-- MAGIC compares header bytes 0 to 3 with the signature; it raises `InvalidHeader` with the index of
the first mismatch, whatever the later bytes are, and passes when there is none. It changes nothing
else, and completes in every state (R64). The first clause, that MAGIC is selected for every header,
with the signature or without, is the model's reading (log 10). -/
def Obligations.MagicReportsTheFirstMismatch : Prop :=
  (∀ h : Header, decode (.hdr .magic h) = .ok (.magic h[0] h[1] h[2] h[3])) ∧
  ∀ (m0 m1 m2 m3 : Byte) (s : State),
    let failing (i : Fin 16) : State :=
      { s with sig := { s.sig with result := some (.err (.invalidHeader i)) } }
    (m0 ≠ 0x4E#8 → exec (.magic m0 m1 m2 m3) s = .next (failing 0)) ∧
    (m0 = 0x4E#8 → m1 ≠ 0x45#8 → exec (.magic m0 m1 m2 m3) s = .next (failing 1)) ∧
    (m0 = 0x4E#8 → m1 = 0x45#8 → m2 ≠ 0x53#8 → exec (.magic m0 m1 m2 m3) s = .next (failing 2)) ∧
    (m0 = 0x4E#8 → m1 = 0x45#8 → m2 = 0x53#8 → m3 ≠ 0x1A#8 →
      exec (.magic m0 m1 m2 m3) s = .next (failing 3)) ∧
    (m0 = 0x4E#8 → m1 = 0x45#8 → m2 = 0x53#8 → m3 = 0x1A#8 →
      exec (.magic m0 m1 m2 m3) s = .next { s with sig := { s.sig with magicPassed := true } })

/-- R67, R68: on a validated header DIALECT.E is selected when byte 7 bits 3:2 are `0b10`, DIALECT.L
otherwise; they give `Extended` and `Legacy`, and change nothing else. -/
def Obligations.DialectRowsGiveTheDialect : Prop :=
  (∀ h : Header, HasSignature h →
    (MarkedExtended h → decode (.hdr .dialect h) = .ok .dialectE) ∧
    (¬ MarkedExtended h → decode (.hdr .dialect h) = .ok (.dialectL (h[7].extractLsb' 2 2)))) ∧
  (∀ s : State, exec .dialectE s =
    .next { s with sig := { s.sig with dialect := some .extended } }) ∧
  ∀ (s : State) (mark : BitVec 2), exec (.dialectL mark) s =
    .next { s with sig := { s.sig with dialect := some .legacy } }

/-- R70 to R73: on a validated header the four flag rows read byte 6 bits 0, 1, 2 and 3; each gives
its own flag the value of its bit and changes nothing else (R69: no interaction). -/
def Obligations.FlagRowsReadByteSix : Prop :=
  (∀ h : Header, HasSignature h →
    decode (.hdr .vmirror h) = .ok (.vmirror (h[6].extractLsb' 0 1)) ∧
    decode (.hdr .battery h) = .ok (.battery (h[6].extractLsb' 1 1)) ∧
    decode (.hdr .trainerf h) = .ok (.trainerf (h[6].extractLsb' 2 1)) ∧
    decode (.hdr .fourscr h) = .ok (.fourscr (h[6].extractLsb' 3 1))) ∧
  ∀ (s : State) (bit : BitVec 1),
    exec (.vmirror bit) s =
      .next { s with sig := { s.sig with verticalMirroring := some (decide (bit = 1#1)) } } ∧
    exec (.battery bit) s =
      .next { s with sig := { s.sig with battery := some (decide (bit = 1#1)) } } ∧
    exec (.trainerf bit) s =
      .next { s with sig := { s.sig with trainerFlag := some (decide (bit = 1#1)) } } ∧
    exec (.fourscr bit) s =
      .next { s with sig := { s.sig with fourScreen := some (decide (bit = 1#1)) } }

/-- R74, R75: on a validated `Extended` header SUBMAP.E reads byte 8 bits 7:4 and TIMING.E byte 12
bits 1:0; in `Legacy` the two groups select nothing. Each gives its value, in the order NTSC, PAL,
Multi-region, Dendy for the timing, and changes nothing else. -/
def Obligations.DroppedRowsGiveTheirFields : Prop :=
  (∀ h : Header, HasSignature h →
    (MarkedExtended h →
      decode (.hdr .submap h) = .ok (.submapE (h[8].extractLsb' 4 4)) ∧
      decode (.hdr .timing h) = .ok (.timingE (h[12].extractLsb' 0 2))) ∧
    (¬ MarkedExtended h →
      decode (.hdr .submap h) = .error (.noRow .submap) ∧
      decode (.hdr .timing h) = .error (.noRow .timing))) ∧
  (∀ (s : State) (x : BitVec 4), exec (.submapE x) s =
    .next { s with sig := { s.sig with submapper := some x } }) ∧
  ∀ s : State,
    exec (.timingE 0#2) s = .next { s with sig := { s.sig with timing := some .ntsc } } ∧
    exec (.timingE 1#2) s = .next { s with sig := { s.sig with timing := some .pal } } ∧
    exec (.timingE 2#2) s = .next { s with sig := { s.sig with timing := some .multiRegion } } ∧
    exec (.timingE 3#2) s = .next { s with sig := { s.sig with timing := some .dendy } }

/-- R77, R78: on a validated header MAPPER.E is selected in `Extended` and MAPPER.L in `Legacy`; the
mapper number has byte 6 bits 7:4 at bits 3:0, byte 7 bits 7:4 at bits 7:4, and at bits 11:8 byte 8
bits 3:0 in `Extended` and 0 in `Legacy`. Nothing else changes. -/
def Obligations.MapperRowsAssembleTheNibbles : Prop :=
  (∀ h : Header, HasSignature h →
    (MarkedExtended h → decode (.hdr .mapper h) =
      .ok (.mapperE (h[6].extractLsb' 4 4) (h[7].extractLsb' 4 4) (h[8].extractLsb' 0 4))) ∧
    (¬ MarkedExtended h → decode (.hdr .mapper h) =
      .ok (.mapperL (h[6].extractLsb' 4 4) (h[7].extractLsb' 4 4)))) ∧
  (∀ (s : State) (lo mid hi : BitVec 4), ∃ m : MapperNumber,
    exec (.mapperE lo mid hi) s = .next { s with sig := { s.sig with mapper := some m } } ∧
    m.toNat = hi.toNat * 256 + mid.toNat * 16 + lo.toNat) ∧
  ∀ (s : State) (lo mid : BitVec 4), ∃ m : MapperNumber,
    exec (.mapperL lo mid) s = .next { s with sig := { s.sig with mapper := some m } } ∧
    m.toNat = mid.toNat * 16 + lo.toNat

/-- R76: `mapper(h)` with its masks and shifts is, on every validated header and in every state, what
the row that the header selects gives. -/
def Obligations.MapperFunctionIsTheSelectedRow : Prop :=
  ∀ (h : Header) (s : State), HasSignature h →
    ∃ i, decode (.hdr .mapper h) = .ok i ∧
      exec i s = .next { s with sig := { s.sig with mapper := some (mapper h) } } ∧
      (mapper h).toNat =
        (if MarkedExtended h then (h[8].toNat % 16) * 256 else 0) + (h[7].toNat / 16) * 16 +
          h[6].toNat / 16

/-- R81, R82: `UNPACK` is `2^exponent * (2 * multiplier + 1)` with the multiplier in bits 1:0 and the
exponent in bits 7:2, exact, at least 1 and below `2^66`, so that the 66-bit output holds it. -/
def Obligations.UnpackIsExact : Prop :=
  ∀ raw : RawSize,
    unpack raw = 2 ^ (raw.extractLsb' 2 6).toNat * (2 * (raw.extractLsb' 0 2).toNat + 1) ∧
    1 ≤ unpack raw ∧ unpack raw < 2 ^ 66 ∧ (unpackUnits raw).toNat = unpack raw

/-- The spec's own inference (43_romsize.md: "In hardware `UNPACK` is a left barrel shifter"):
`UNPACK(raw) = zext_66(raw[1:0] ++ 0b1) << raw[7:2]`; bit `exponent` is 1 and no bit outside
positions `exponent` to `exponent + 2` is. -/
def Obligations.UnpackIsALeftBarrelShift : Prop :=
  ∀ raw : RawSize,
    unpackUnits raw =
      (raw.extractLsb' 0 2 ++ 1#1 : BitVec 3).setWidth 66 <<< (raw.extractLsb' 2 6).toNat ∧
    (unpackUnits raw).getLsbD (raw.extractLsb' 2 6).toNat = true ∧
    ∀ k, (unpackUnits raw).getLsbD k = true →
      (raw.extractLsb' 2 6).toNat ≤ k ∧ k ≤ (raw.extractLsb' 2 6).toNat + 2

/-- R86 to R88: on a validated header PRGSIZE.L is selected in `Legacy`; in `Extended` PRGSIZE.EX when
byte 9 bits 3:0 are `0xF` and PRGSIZE.EP otherwise. They give byte 4; `h[9][3:0] ++ h[4]`; and
`2^(h[4][7:2]) * (2 * h[4][1:0] + 1)`, with `prg_exp` true. Nothing else changes. -/
def Obligations.PrgSizeRowsGiveTheirCounts : Prop :=
  (∀ h : Header, HasSignature h →
    (¬ MarkedExtended h → decode (.hdr .prgsize h) = .ok (.prgsizeL h[4])) ∧
    (MarkedExtended h → h[9].extractLsb' 0 4 = 0xF#4 →
      decode (.hdr .prgsize h) = .ok (.prgsizeEX h[4])) ∧
    (MarkedExtended h → h[9].extractLsb' 0 4 ≠ 0xF#4 →
      decode (.hdr .prgsize h) = .ok (.prgsizeEP h[4] (h[9].extractLsb' 0 4)))) ∧
  (∀ (s : State) (lo : Byte), ∃ p : Units,
    exec (.prgsizeL lo) s = .next { s with sig := { s.sig with prg := some p } } ∧
    p.toNat = lo.toNat) ∧
  (∀ (s : State) (lo : Byte) (hi : BitVec 4), ∃ p : Units,
    exec (.prgsizeEP lo hi) s = .next { s with sig := { s.sig with prg := some p } } ∧
    p.toNat = hi.toNat * 256 + lo.toNat) ∧
  ∀ (s : State) (lo : Byte), ∃ p : Units,
    exec (.prgsizeEX lo) s =
      .next { s with sig := { s.sig with prg := some p, prgExp := some true } } ∧
    p.toNat = 2 ^ (lo.toNat / 4) * (2 * (lo.toNat % 4) + 1)

/-- R90 to R92: the same of CHRSIZE, with byte 5 and byte 9 bits 7:4, and `chr_exp`. -/
def Obligations.ChrSizeRowsGiveTheirCounts : Prop :=
  (∀ h : Header, HasSignature h →
    (¬ MarkedExtended h → decode (.hdr .chrsize h) = .ok (.chrsizeL h[5])) ∧
    (MarkedExtended h → h[9].extractLsb' 4 4 = 0xF#4 →
      decode (.hdr .chrsize h) = .ok (.chrsizeEX h[5])) ∧
    (MarkedExtended h → h[9].extractLsb' 4 4 ≠ 0xF#4 →
      decode (.hdr .chrsize h) = .ok (.chrsizeEP h[5] (h[9].extractLsb' 4 4)))) ∧
  (∀ (s : State) (lo : Byte), ∃ c : Units,
    exec (.chrsizeL lo) s = .next { s with sig := { s.sig with chr := some c } } ∧
    c.toNat = lo.toNat) ∧
  (∀ (s : State) (lo : Byte) (hi : BitVec 4), ∃ c : Units,
    exec (.chrsizeEP lo hi) s = .next { s with sig := { s.sig with chr := some c } } ∧
    c.toNat = hi.toNat * 256 + lo.toNat) ∧
  ∀ (s : State) (lo : Byte), ∃ c : Units,
    exec (.chrsizeEX lo) s =
      .next { s with sig := { s.sig with chr := some c, chrExp := some true } } ∧
    c.toNat = 2 ^ (lo.toNat / 4) * (2 * (lo.toNat % 4) + 1)

/-- R85: `prg_units(h)`, merged and reinterpreted, is on every validated header what the row that the
header selects gives, and in numbers: byte 4 in `Legacy`; in `Extended` the merged 12-bit count, or
the exponent form when byte 9 bits 3:0 are `0xF`. -/
def Obligations.PrgUnitsIsTheSelectedRow : Prop :=
  ∀ (h : Header) (s : State), HasSignature h →
    (∃ i t, decode (.hdr .prgsize h) = .ok i ∧ exec i s = .next t ∧
      t.sig.prg = some (prgUnits h)) ∧
    (prgUnits h).toNat =
      if MarkedExtended h then
        if h[9].toNat % 16 = 15 then 2 ^ (h[4].toNat / 4) * (2 * (h[4].toNat % 4) + 1)
        else (h[9].toNat % 16) * 256 + h[4].toNat
      else h[4].toNat

/-- R89: the same of `chr_units(h)`, with byte 5 and byte 9 bits 7:4. -/
def Obligations.ChrUnitsIsTheSelectedRow : Prop :=
  ∀ (h : Header) (s : State), HasSignature h →
    (∃ i t, decode (.hdr .chrsize h) = .ok i ∧ exec i s = .next t ∧
      t.sig.chr = some (chrUnits h)) ∧
    (chrUnits h).toNat =
      if MarkedExtended h then
        if h[9].toNat / 16 = 15 then 2 ^ (h[5].toNat / 4) * (2 * (h[5].toNat % 4) + 1)
        else (h[9].toNat / 16) * 256 + h[5].toNat
      else h[5].toNat

/-- R94, R95: on a validated header TRAINER.COPY is selected when byte 6 bit 2 is 1, TRAINER.ABSENT
otherwise. TRAINER.ABSENT gives no trainer. TRAINER.COPY raises `InvalidHeader(6)` when the input
has fewer than 528 bytes, and otherwise gives the block `T[a] = B[16 + a]`, which the port machine
holds in `TRN` (R96). Nothing else changes. -/
def Obligations.TrainerRowsCopyOrFail : Prop :=
  (∀ h : Header, HasSignature h →
    (h[6].getLsbD 2 = true → decode (.hdr .trainer h) = .ok .trainerCopy) ∧
    (h[6].getLsbD 2 = false → decode (.hdr .trainer h) = .ok .trainerAbsent)) ∧
  ∀ s : State,
    exec .trainerAbsent s = .next { s with sig := { s.sig with trainer := some none } } ∧
    (s.cnt.toNat < 528 → exec .trainerCopy s =
      .next { s with sig := { s.sig with result := some (.err (.invalidHeader 6)) } }) ∧
    (528 ≤ s.cnt.toNat → ∃ block : TrainerBlock,
      exec .trainerCopy s =
        .next { s with sig := { s.sig with trainer := some (some block) } } ∧
      ∀ (a : Nat) (ha : a < 512), block[a] = s.trnByte a)

/-- R97: ASSEMBLE is selected for every validated header and builds the descriptor of its six
operands, whatever their values. Nothing else changes. -/
def Obligations.AssembleBuildsTheDescriptor : Prop :=
  (∀ h : Header, HasSignature h → decode (.hdr .assemble h) = .ok .assemble) ∧
  ∀ (s : State) (p c : Units) (m : MapperNumber) (v f : Bool) (t : Option TrainerBlock),
    s.sig.prg = some p → s.sig.chr = some c → s.sig.mapper = some m →
    s.sig.verticalMirroring = some v → s.sig.fourScreen = some f → s.sig.trainer = some t →
    exec .assemble s = .next { s with sig := { s.sig with
      result := some (.ok { prgRomSize := p, chrRomSize := c, mapperNumber := m,
                            verticalMirroring := v, fourScreenVram := f, trainer := t }) } }

/-- With any of its six operands missing ASSEMBLE assembles nothing (the model's choice, log 12). -/
def Obligations.AssembleWithoutAnOperandDoesNothing : Prop :=
  ∀ s : State,
    (s.sig.prg = none ∨ s.sig.chr = none ∨ s.sig.mapper = none ∨
      s.sig.verticalMirroring = none ∨ s.sig.fourScreen = none ∨ s.sig.trainer = none) →
    exec .assemble s = .next s

/-! ### Layer 1: the function Decode -/

/-- From any state with no signal evaluated, evaluating the fourteen groups in pipeline order, step by
step, ends with the result `Decode(CNT, P)` of R98 and leaves the four elements as they were. That the
groups run one a step, on an observer's requests, is the model's choice (log 1). -/
def Obligations.EvaluatingThePipelineIsDecode : Prop :=
  ∀ (s : State) (rest : List Stimulus), s.sig = Signals.idle →
    s.inputs = pipeline.map Stimulus.evaluate ++ rest →
    ∃ t, Host.Core.run Sys2Proof.core 14 s = .next t ∧
      t.sig.result = some (decodeInput s.cnt.toNat s.inputByte) ∧
      t.SameBlock s ∧ t.inputs = rest ∧ t.resets = s.resets ∧ t.freeEdges = s.freeEdges

/-- The failures, each under exactly its cause (R112), the first in the order length, signature from
byte 0 to 3, trainer (R114). The last clause, that no other index is ever reported, is the spec's own
inference (60_exceptions.md: "with an index of 4, 5 or 7 to 15 never occurs"). -/
def Obligations.FailuresAndTheirOrder : Prop :=
  ∀ (n : Nat) (B : Nat → Byte),
    (decodeInput n B = .err .tooShort ↔ n < 16) ∧
    (decodeInput n B = .err (.invalidHeader 0) ↔ 16 ≤ n ∧ B 0 ≠ 0x4E#8) ∧
    (decodeInput n B = .err (.invalidHeader 1) ↔ 16 ≤ n ∧ B 0 = 0x4E#8 ∧ B 1 ≠ 0x45#8) ∧
    (decodeInput n B = .err (.invalidHeader 2) ↔
      16 ≤ n ∧ B 0 = 0x4E#8 ∧ B 1 = 0x45#8 ∧ B 2 ≠ 0x53#8) ∧
    (decodeInput n B = .err (.invalidHeader 3) ↔
      16 ≤ n ∧ B 0 = 0x4E#8 ∧ B 1 = 0x45#8 ∧ B 2 = 0x53#8 ∧ B 3 ≠ 0x1A#8) ∧
    (decodeInput n B = .err (.invalidHeader 6) ↔
      16 ≤ n ∧ n < 528 ∧ B 0 = 0x4E#8 ∧ B 1 = 0x45#8 ∧ B 2 = 0x53#8 ∧ B 3 = 0x1A#8 ∧
        (B 6).getLsbD 2 = true) ∧
    ∀ i, decodeInput n B = .err (.invalidHeader i) → i ∈ [0, 1, 2, 3, 6]

/-- An input decodes exactly when none of the three causes of R58 holds, whatever its sizes, mapper number, timing code and unused
bits; and the descriptor has the fields that R18 and the rules it names give. -/
def Obligations.EverythingElseDecodes : Prop :=
  (∀ (n : Nat) (B : Nat → Byte), (∃ d, decodeInput n B = .ok d) ↔
    16 ≤ n ∧ HasSignature (headerOf B) ∧ ((B 6).getLsbD 2 = true → 528 ≤ n)) ∧
  ∀ (n : Nat) (B : Nat → Byte), 16 ≤ n → HasSignature (headerOf B) →
    ((B 6).getLsbD 2 = true → 528 ≤ n) →
    ∃ d, decodeInput n B = .ok d ∧
      d.prgRomSize = prgUnits (headerOf B) ∧ d.chrRomSize = chrUnits (headerOf B) ∧
      d.mapperNumber = mapper (headerOf B) ∧
      d.verticalMirroring = (B 6).getLsbD 0 ∧ d.fourScreenVram = (B 6).getLsbD 3 ∧
      ((B 6).getLsbD 2 = false → d.trainer = none) ∧
      ((B 6).getLsbD 2 = true → ∃ block, d.trainer = some block ∧
        ∀ (a : Nat) (ha : a < 512), block[a] = B (16 + a))

/-- The spec's own inference (44_trainer_assembly.md, "What the result depends on"): the result depends
on nothing but the two length comparisons, bytes 0 to 5, byte 6 less bit 1, byte 7 bits 7:2, in
`Extended` byte 8 bits 3:0 and byte 9, and with the trainer flag and at least 528 bytes, bytes 16 to
527. "Hence", with `k = min(n, 528)`, `Decode(n, B) = Decode(k, B[0..k-1])`. -/
def Obligations.DecodeDependsOnTheseBitsAlone : Prop :=
  (∀ (n m : Nat) (B C : Nat → Byte), (n < 16 ↔ m < 16) → (n < 528 ↔ m < 528) →
    (16 ≤ n → ∀ k, k < 4 → B k = C k) →
    (16 ≤ n → HasSignature (headerOf B) →
      B 4 = C 4 ∧ B 5 = C 5 ∧ (∀ k, k ≠ 1 → (B 6).getLsbD k = (C 6).getLsbD k) ∧
      (B 7).extractLsb' 2 6 = (C 7).extractLsb' 2 6 ∧
      (MarkedExtended (headerOf B) →
        (B 8).extractLsb' 0 4 = (C 8).extractLsb' 0 4 ∧ B 9 = C 9)) →
    (528 ≤ n → HasSignature (headerOf B) → (B 6).getLsbD 2 = true →
      ∀ k, 16 ≤ k → k < 528 → B k = C k) →
    decodeInput n B = decodeInput m C) ∧
  ∀ bytes : List Byte, decodeList bytes = decodeList (bytes.take 528)

/-- R100: the header with a valid signature and every other byte zero. -/
def Obligations.AllZeroHeaderDecodes : Prop :=
  decodeList [0x4E#8, 0x45#8, 0x53#8, 0x1A#8, 0#8, 0#8, 0#8, 0#8, 0#8, 0#8, 0#8, 0#8, 0#8, 0#8,
      0#8, 0#8] =
    .ok { prgRomSize := 0#66, chrRomSize := 0#66, mapperNumber := 0#12,
          verticalMirroring := false, fourScreenVram := false, trainer := none }

/-- R84: a consumer's byte size is the unit count shifted left by 14 for PRG and by 13 for CHR, and
fits in 80 and in 79 bits. -/
def Obligations.ConsumerByteSizesAreShifts : Prop :=
  ∀ d : Descriptor,
    d.prgBytes = d.prgRomSize.toNat <<< 14 ∧ d.prgBytes < 2 ^ 80 ∧
    d.chrBytes = d.chrRomSize.toNat <<< 13 ∧ d.chrBytes < 2 ^ 79

/-! ### Reset and invariants -/

/-- R35: after reset `CNT` is 0, `PHASE` is `RUN`, and every output is 0. -/
def Obligations.ResetStateIsIdle : Prop :=
  State.reset.cnt = 0#10 ∧ State.reset.phase = .run ∧
  ∀ a, outputs State.reset a = Outputs.only 0x00#8

/-- The invariant holds at reset. -/
def Obligations.ResetMeetsTheInvariant : Prop := State.reset.Inv

/-- Every step keeps: `CNT` at most 528 (R33 (a)), `TRN` in canonical form with addresses below 512,
and no stale signal (R28). -/
def Obligations.EveryStepKeepsTheInvariant : Prop :=
  ∀ s t : State, s.Inv → step s = .next t → t.Inv
end

