-- ==== Sys2Proof/Laws/Bits.lean ====
section
/-! SUPPORT. Bit-level lemmas: the fields of words put together from parts, and table masks read
byte by byte. -/

namespace Sys2Proof

/-! ### Words put together from parts -/

theorem cmd_toNat (c : BitVec 2) (d : Byte) :
    BitVec.toNat (c ++ d : CmdWord) = c.toNat * 256 + d.toNat := by
  have h : BitVec.toNat (c ++ d : CmdWord) = c.toNat <<< 8 ||| d.toNat := BitVec.toNat_append c d
  rw [h, ← Nat.shiftLeft_add_eq_or_of_lt d.isLt, Nat.shiftLeft_eq]

theorem cmd_code (c : BitVec 2) (d : Byte) : (c ++ d : CmdWord).extractLsb' 8 2 = c := by
  apply BitVec.eq_of_toNat_eq
  rw [BitVec.extractLsb'_toNat, cmd_toNat, Nat.shiftRight_eq_div_pow]
  omega

theorem cmd_din (c : BitVec 2) (d : Byte) : (c ++ d : CmdWord).extractLsb' 0 8 = d := by
  apply BitVec.eq_of_toNat_eq
  rw [BitVec.extractLsb'_toNat, cmd_toNat, Nat.shiftRight_eq_div_pow]
  omega

theorem cmd_eta (w : CmdWord) : (w.extractLsb' 8 2 ++ w.extractLsb' 0 8 : CmdWord) = w := by
  apply BitVec.eq_of_toNat_eq
  rw [cmd_toNat, BitVec.extractLsb'_toNat, BitVec.extractLsb'_toNat, Nat.shiftRight_eq_div_pow,
    Nat.shiftRight_eq_div_pow]
  omega

theorem nibbles_hi (a b : BitVec 4) : (a ++ b : Byte).extractLsb' 4 4 = a := by
  revert a b; decide

theorem nibbles_lo (a b : BitVec 4) : (a ++ b : Byte).extractLsb' 0 4 = b := by
  revert a b; decide

theorem nibble_byte_toNat (hi : BitVec 4) (lo : Byte) :
    BitVec.toNat (hi ++ lo : BitVec 12) = hi.toNat * 256 + lo.toNat := by
  have h : BitVec.toNat (hi ++ lo : BitVec 12) = hi.toNat <<< 8 ||| lo.toNat :=
    BitVec.toNat_append hi lo
  rw [h, ← Nat.shiftLeft_add_eq_or_of_lt lo.isLt, Nat.shiftLeft_eq]

theorem three_nibbles_toNat (a b c : BitVec 4) :
    BitVec.toNat (a ++ b ++ c : BitVec 12) = a.toNat * 256 + b.toNat * 16 + c.toNat := by
  revert a b c; decide +kernel

/-! ### Masks over the header word -/

theorem hword_ext {x y : HWord}
    (h : ∀ k, k < 16 → x.extractLsb' (8 * k) 8 = y.extractLsb' (8 * k) 8) : x = y := by
  apply BitVec.eq_of_getLsbD_eq
  intro i hi
  have := congrArg (fun b : Byte => b.getLsbD (i % 8)) (h (i / 8) (by omega))
  simp only [BitVec.getLsbD_extractLsb', show i % 8 < 8 by omega, decide_true, Bool.true_and]
    at this
  rwa [show 8 * (i / 8) + i % 8 = i by omega] at this

/-- A mask holds of a header word when its bytes hold of the header bytes (R50). -/
theorem mask_iff_bytes (w m p : HWord) : (w &&& m = p) ↔
    ∀ k, (hk : k < 16) →
      (headerOfWord w)[k] &&& m.extractLsb' (8 * k) 8 = p.extractLsb' (8 * k) 8 := by
  constructor
  · rintro rfl k hk
    simp [headerOfWord, BitVec.extractLsb'_and]
  · intro h
    apply hword_ext
    intro k hk
    simpa [headerOfWord, BitVec.extractLsb'_and] using h k hk

/-- A statement about the sixteen header bytes, byte by byte. -/
theorem forall_byte_iff (P : ∀ k, k < 16 → Prop) : (∀ k (hk : k < 16), P k hk) ↔
    P 0 (by omega) ∧ P 1 (by omega) ∧ P 2 (by omega) ∧ P 3 (by omega) ∧ P 4 (by omega) ∧
    P 5 (by omega) ∧ P 6 (by omega) ∧ P 7 (by omega) ∧ P 8 (by omega) ∧ P 9 (by omega) ∧
    P 10 (by omega) ∧ P 11 (by omega) ∧ P 12 (by omega) ∧ P 13 (by omega) ∧ P 14 (by omega) ∧
    P 15 (by omega) := by
  constructor
  · intro h; simp [h]
  · rintro ⟨_, _, _, _, _, _, _, _, _, _, _, _, _, _, _, _⟩ k hk
    interval_cases k <;> assumption

end Sys2Proof
end

