-- ==== Sys2Proof/Laws/Decode.lean ====
section
/-! SUPPORT. Small lemmas about header fields, the signature, the dialect and the inputs. -/

namespace Sys2Proof.Machine

theorem signatureOk_iff (h : Header) :
    signatureOk h = true ↔ h[0] = 0x4E#8 ∧ h[1] = 0x45#8 ∧ h[2] = 0x53#8 ∧ h[3] = 0x1A#8 := by
  simp [signatureOk, Config.magic]

theorem isExtended_iff_bits (b : Byte) :
    b.extractLsb' 2 2 = 0b10#2 ↔ (b &&& 0b1100#8) >>> 2 = 0b10#8 := by
  revert b; decide

/-- "ext" of R57 is the dialect of R66. -/
theorem isExtended_iff (h : Header) : isExtended h = true ↔ dialect h = .extended := by
  simp only [isExtended, Field.dialectMark, beq_iff_eq, dialect]
  rw [show Config.dialectMark = 0b10#2 from rfl, isExtended_iff_bits,
    show (0b10#2).setWidth 8 = 0b10#8 from rfl]
  split <;> simp_all

theorem dialect_eq_legacy_iff (h : Header) : dialect h = .legacy ↔ ¬ dialect h = .extended := by
  cases dialect h <;> simp

@[simp] theorem bitSet_extract (b : Byte) (k : Nat) :
    bitSet (b.extractLsb' k 1) = b.getLsbD k := by
  rw [bitSet, Bool.eq_iff_iff, beq_iff_eq]
  constructor
  · intro h
    have := congrArg (fun x : BitVec 1 => x.getLsbD 0) h
    simpa using this
  · intro h
    ext i hi
    have : i = 0 := by omega
    subst this
    simpa using h

theorem trainerFlag_iff (h : Header) : Field.trainerFlag h = 1#1 ↔ trainerFlag h = true := by
  have := bitSet_extract h[6] 2
  simp only [Field.trainerFlag, trainerFlag, ← this, bitSet, beq_iff_eq]

/-- The signature as the list that `firstMismatch` walks. -/
theorem magic_toList : Config.magic.toList = [0x4E#8, 0x45#8, 0x53#8, 0x1A#8] := rfl

/-- What MAGIC raises, place by place (R64, R65). -/
theorem magicCheck_eq (m0 m1 m2 m3 : Byte) : magicCheck m0 m1 m2 m3 =
    if m0 ≠ 0x4E#8 then some (.invalidHeader 0)
    else if m1 ≠ 0x45#8 then some (.invalidHeader 1)
    else if m2 ≠ 0x53#8 then some (.invalidHeader 2)
    else if m3 ≠ 0x1A#8 then some (.invalidHeader 3)
    else none := by
  simp only [magicCheck, magic_toList, firstMismatch]
  by_cases h0 : m0 = 0x4E#8
  · by_cases h1 : m1 = 0x45#8
    · by_cases h2 : m2 = 0x53#8
      · by_cases h3 : m3 = 0x1A#8
        · simp [h0, h1, h2, h3]
        · simp only [h0, h1, h2, h3, ne_eq, not_true, not_false_eq_true, if_true, if_false]; rfl
      · simp only [h0, h1, h2, ne_eq, not_true, not_false_eq_true, if_true, if_false]; rfl
    · simp only [h0, h1, ne_eq, not_true, not_false_eq_true, if_true, if_false]; rfl
  · simp only [h0, ne_eq, not_false_eq_true, if_true]; rfl

/-- MAGIC passes exactly on the signature. -/
theorem magicCheck_eq_none_iff (h : Header) :
    magicCheck h[0] h[1] h[2] h[3] = none ↔ signatureOk h = true := by
  rw [signatureOk_iff, magicCheck_eq]
  split_ifs <;> simp_all

/-- Two headers with the same sixteen bytes are equal. -/
theorem header_ext {h h' : Header} (H : ∀ i (hi : i < 16), h[i] = h'[i]) : h = h' := Vector.ext H

/-- Two trainer blocks with the same 512 bytes are equal. -/
theorem trainerBlock_ext {t t' : TrainerBlock} (H : ∀ a (ha : a < 512), t[a] = t'[a]) : t = t' :=
  Vector.ext H

@[simp] theorem markedByte_mark (hi : BitVec 4) :
    (markedByte hi).extractLsb' 2 2 = Config.dialectMark := by
  revert hi; decide

@[simp] theorem markedByte_hi (hi : BitVec 4) : (markedByte hi).extractLsb' 4 4 = hi := by
  revert hi; decide

@[simp] theorem headerOf_getElem (B : Nat → Byte) (i : Nat) (h : i < 16) :
    (headerOf B)[i] = B i := by
  simp [headerOf]

@[simp] theorem trainerOf_getElem (B : Nat → Byte) (a : Nat) (h : a < 512) :
    (trainerOf B)[a] = B (16 + a) := by
  simp [trainerOf, Config.trainerBase]

/-- The header of the bytes pushed is HDR (R13). -/
@[simp] theorem headerOf_inputByte (s : State) : headerOf s.inputByte = s.hdr := by
  ext i hi
  simp [State.inputByte, hi]

theorem inputByte_of_lt (s : State) {i : Nat} (h : i < 16) : s.inputByte i = s.hdr[i] := by
  simp [State.inputByte, h]

theorem inputByte_trainer (s : State) (a : Nat) : s.inputByte (16 + a) = s.trnByte a := by
  simp [State.inputByte, Config.trainerBase]

/-! The comparisons with the constants of R9, in numbers. -/

theorem lenchk_eq (n : Nat) : lenchk n = if n < 16 then some .tooShort else none := rfl

theorem trainerCopy_eq (n : Nat) (B : Nat → Byte) : trainerCopy n B =
    if n < 528 then .error (.invalidHeader 6) else .ok (some (trainerOf B)) := rfl

theorem trainerField_eq (n : Nat) (B : Nat → Byte) : trainerField n B =
    if trainerFlag (headerOf B) = true then
      if n < 528 then .error (.invalidHeader 6) else .ok (some (trainerOf B))
    else .ok none := rfl

/-- `Decode` reads a byte only where it must: two inputs that agree on the header, and on the
trainer where it is taken, decode alike. -/
theorem decodeInput_congr {n : Nat} {B C : Nat → Byte} (hh : 16 ≤ n → headerOf B = headerOf C)
    (ht : 528 ≤ n → trainerFlag (headerOf B) = true → trainerOf B = trainerOf C) :
    decodeInput n B = decodeInput n C := by
  by_cases hn : n < 16
  · simp [decodeInput, lenchk_eq, hn]
  · have hh := hh (by omega)
    have htf : trainerField n B = trainerField n C := by
      simp only [trainerField_eq, ← hh]
      by_cases hf : trainerFlag (headerOf B) = true
      · by_cases h5 : n < 528
        · simp [h5]
        · simp [hf, h5, ht (by omega) hf]
      · simp [hf]
    simp only [decodeInput, ← hh, htf]

/-- The three ways a decode fails and the one way it succeeds (R114). -/
theorem decodeInput_cases (n : Nat) (B : Nat → Byte) :
    (n < 16 ∧ decodeInput n B = .err .tooShort) ∨
    (16 ≤ n ∧ ∃ e, magicCheck (B 0) (B 1) (B 2) (B 3) = some e ∧ decodeInput n B = .err e) ∨
    (16 ≤ n ∧ n < 528 ∧ signatureOk (headerOf B) = true ∧ trainerFlag (headerOf B) = true ∧
      decodeInput n B = .err (.invalidHeader 6)) ∨
    (16 ≤ n ∧ signatureOk (headerOf B) = true ∧ (trainerFlag (headerOf B) = true → 528 ≤ n) ∧
      decodeInput n B = .ok (assemble (prgUnits (headerOf B)) (chrUnits (headerOf B))
        (mapper (headerOf B)) (verticalMirroring (headerOf B)) (fourScreenVram (headerOf B))
        (if trainerFlag (headerOf B) = true then some (trainerOf B) else none))) := by
  by_cases hn : n < 16
  · exact .inl ⟨hn, by simp [decodeInput, lenchk_eq, hn]⟩
  · have hl : lenchk n = none := by simp [lenchk_eq, hn]
    cases hm : magicCheck (B 0) (B 1) (B 2) (B 3) with
    | some e => exact .inr (.inl ⟨by omega, e, rfl, by simp [decodeInput, hl, hm]⟩)
    | none =>
      have hs : signatureOk (headerOf B) = true := by
        rw [← magicCheck_eq_none_iff]; simpa using hm
      by_cases hf : trainerFlag (headerOf B) = true
      · by_cases h5 : n < 528
        · exact .inr (.inr (.inl ⟨by omega, h5, hs, hf, by
            simp [decodeInput, hl, hm, trainerField_eq, hf, h5]⟩))
        · exact .inr (.inr (.inr ⟨by omega, hs, fun _ => by omega, by
            simp [decodeInput, hl, hm, trainerField_eq, hf, h5]⟩))
      · exact .inr (.inr (.inr ⟨by omega, hs, fun h => absurd h hf, by
          simp [decodeInput, hl, hm, trainerField_eq, hf]⟩))

end Sys2Proof.Machine
end

