-- ==== Sys2Proof/Laws/State.lean ====
section
/-! SUPPORT. One lemma per field per update of the state. -/

namespace Sys2Proof.Machine

@[simp] theorem writeHdr_hdr (s : State) (i : Nat) (v : Byte) :
    (s.writeHdr i v).hdr = s.hdr.setIfInBounds i v := rfl
@[simp] theorem writeHdr_cnt (s : State) (i : Nat) (v : Byte) : (s.writeHdr i v).cnt = s.cnt := rfl
@[simp] theorem writeHdr_phase (s : State) (i : Nat) (v : Byte) :
    (s.writeHdr i v).phase = s.phase := rfl
@[simp] theorem writeHdr_trn (s : State) (i : Nat) (v : Byte) : (s.writeHdr i v).trn = s.trn := rfl
@[simp] theorem writeHdr_sig (s : State) (i : Nat) (v : Byte) : (s.writeHdr i v).sig = s.sig := rfl
@[simp] theorem writeHdr_inputs (s : State) (i : Nat) (v : Byte) :
    (s.writeHdr i v).inputs = s.inputs := rfl
@[simp] theorem writeHdr_resets (s : State) (i : Nat) (v : Byte) :
    (s.writeHdr i v).resets = s.resets := rfl
@[simp] theorem writeHdr_freeEdges (s : State) (i : Nat) (v : Byte) :
    (s.writeHdr i v).freeEdges = s.freeEdges := rfl

@[simp] theorem writeTrn_hdr (s : State) (a : Nat) (v : Byte) : (s.writeTrn a v).hdr = s.hdr := rfl
@[simp] theorem writeTrn_cnt (s : State) (a : Nat) (v : Byte) : (s.writeTrn a v).cnt = s.cnt := rfl
@[simp] theorem writeTrn_phase (s : State) (a : Nat) (v : Byte) :
    (s.writeTrn a v).phase = s.phase := rfl
@[simp] theorem writeTrn_trn (s : State) (a : Nat) (v : Byte) :
    (s.writeTrn a v).trn = Memory.write s.trn a v := rfl
@[simp] theorem writeTrn_sig (s : State) (a : Nat) (v : Byte) : (s.writeTrn a v).sig = s.sig := rfl
@[simp] theorem writeTrn_inputs (s : State) (a : Nat) (v : Byte) :
    (s.writeTrn a v).inputs = s.inputs := rfl
@[simp] theorem writeTrn_resets (s : State) (a : Nat) (v : Byte) :
    (s.writeTrn a v).resets = s.resets := rfl
@[simp] theorem writeTrn_freeEdges (s : State) (a : Nat) (v : Byte) :
    (s.writeTrn a v).freeEdges = s.freeEdges := rfl

@[simp] theorem setCnt_hdr (s : State) (t : BitVec 10) : (s.setCnt t).hdr = s.hdr := rfl
@[simp] theorem setCnt_cnt (s : State) (t : BitVec 10) : (s.setCnt t).cnt = t := rfl
@[simp] theorem setCnt_phase (s : State) (t : BitVec 10) : (s.setCnt t).phase = s.phase := rfl
@[simp] theorem setCnt_trn (s : State) (t : BitVec 10) : (s.setCnt t).trn = s.trn := rfl
@[simp] theorem setCnt_sig (s : State) (t : BitVec 10) : (s.setCnt t).sig = s.sig := rfl
@[simp] theorem setCnt_inputs (s : State) (t : BitVec 10) : (s.setCnt t).inputs = s.inputs := rfl
@[simp] theorem setCnt_resets (s : State) (t : BitVec 10) : (s.setCnt t).resets = s.resets := rfl
@[simp] theorem setCnt_freeEdges (s : State) (t : BitVec 10) :
    (s.setCnt t).freeEdges = s.freeEdges := rfl

@[simp] theorem setPhase_hdr (s : State) (p : Phase) : (s.setPhase p).hdr = s.hdr := rfl
@[simp] theorem setPhase_cnt (s : State) (p : Phase) : (s.setPhase p).cnt = s.cnt := rfl
@[simp] theorem setPhase_phase (s : State) (p : Phase) : (s.setPhase p).phase = p := rfl
@[simp] theorem setPhase_trn (s : State) (p : Phase) : (s.setPhase p).trn = s.trn := rfl
@[simp] theorem setPhase_sig (s : State) (p : Phase) : (s.setPhase p).sig = s.sig := rfl
@[simp] theorem setPhase_inputs (s : State) (p : Phase) : (s.setPhase p).inputs = s.inputs := rfl
@[simp] theorem setPhase_resets (s : State) (p : Phase) : (s.setPhase p).resets = s.resets := rfl
@[simp] theorem setPhase_freeEdges (s : State) (p : Phase) :
    (s.setPhase p).freeEdges = s.freeEdges := rfl

@[simp] theorem drive_hdr (s : State) (f : Signals → Signals) : (s.drive f).hdr = s.hdr := rfl
@[simp] theorem drive_cnt (s : State) (f : Signals → Signals) : (s.drive f).cnt = s.cnt := rfl
@[simp] theorem drive_phase (s : State) (f : Signals → Signals) : (s.drive f).phase = s.phase := rfl
@[simp] theorem drive_trn (s : State) (f : Signals → Signals) : (s.drive f).trn = s.trn := rfl
@[simp] theorem drive_sig (s : State) (f : Signals → Signals) : (s.drive f).sig = f s.sig := rfl
@[simp] theorem drive_inputs (s : State) (f : Signals → Signals) :
    (s.drive f).inputs = s.inputs := rfl
@[simp] theorem drive_resets (s : State) (f : Signals → Signals) :
    (s.drive f).resets = s.resets := rfl
@[simp] theorem drive_freeEdges (s : State) (f : Signals → Signals) :
    (s.drive f).freeEdges = s.freeEdges := rfl

@[simp] theorem clearSignals_hdr (s : State) : s.clearSignals.hdr = s.hdr := rfl
@[simp] theorem clearSignals_cnt (s : State) : s.clearSignals.cnt = s.cnt := rfl
@[simp] theorem clearSignals_phase (s : State) : s.clearSignals.phase = s.phase := rfl
@[simp] theorem clearSignals_trn (s : State) : s.clearSignals.trn = s.trn := rfl
@[simp] theorem clearSignals_sig (s : State) : s.clearSignals.sig = Signals.idle := rfl
@[simp] theorem clearSignals_inputs (s : State) : s.clearSignals.inputs = s.inputs := rfl
@[simp] theorem clearSignals_resets (s : State) : s.clearSignals.resets = s.resets := rfl
@[simp] theorem clearSignals_freeEdges (s : State) : s.clearSignals.freeEdges = s.freeEdges := rfl

@[simp] theorem loseContents_hdr (s : State) :
    s.loseContents.hdr = Vector.ofFn fun i => Config.freeHdrByte (s.resets + 1) i.val := rfl
@[simp] theorem loseContents_cnt (s : State) : s.loseContents.cnt = s.cnt := rfl
@[simp] theorem loseContents_phase (s : State) : s.loseContents.phase = s.phase := rfl
@[simp] theorem loseContents_trn (s : State) : s.loseContents.trn = [] := rfl
@[simp] theorem loseContents_sig (s : State) : s.loseContents.sig = s.sig := rfl
@[simp] theorem loseContents_inputs (s : State) : s.loseContents.inputs = s.inputs := rfl
@[simp] theorem loseContents_resets (s : State) : s.loseContents.resets = s.resets + 1 := rfl
@[simp] theorem loseContents_freeEdges (s : State) : s.loseContents.freeEdges = s.freeEdges := rfl

@[simp] theorem setInputs_hdr (s : State) (x : List Stimulus) :
    (s.setInputs x).hdr = s.hdr := rfl
@[simp] theorem setInputs_cnt (s : State) (x : List Stimulus) :
    (s.setInputs x).cnt = s.cnt := rfl
@[simp] theorem setInputs_phase (s : State) (x : List Stimulus) :
    (s.setInputs x).phase = s.phase := rfl
@[simp] theorem setInputs_trn (s : State) (x : List Stimulus) :
    (s.setInputs x).trn = s.trn := rfl
@[simp] theorem setInputs_sig (s : State) (x : List Stimulus) :
    (s.setInputs x).sig = s.sig := rfl
@[simp] theorem setInputs_inputs (s : State) (x : List Stimulus) :
    (s.setInputs x).inputs = x := rfl
@[simp] theorem setInputs_resets (s : State) (x : List Stimulus) :
    (s.setInputs x).resets = s.resets := rfl
@[simp] theorem setInputs_freeEdges (s : State) (x : List Stimulus) :
    (s.setInputs x).freeEdges = s.freeEdges := rfl
@[simp] theorem setInputs_setInputs (s : State) (x y : List Stimulus) :
    (s.setInputs x).setInputs y = s.setInputs y := rfl
@[simp] theorem setInputs_self (s : State) : s.setInputs s.inputs = s := rfl

/-! `raise` and `restart`, each by what it does to every field. -/

@[simp] theorem raise_hdr (s : State) (e : DecodeError) : (s.raise e).hdr = s.hdr := rfl
@[simp] theorem raise_cnt (s : State) (e : DecodeError) : (s.raise e).cnt = s.cnt := rfl
@[simp] theorem raise_phase (s : State) (e : DecodeError) : (s.raise e).phase = s.phase := rfl
@[simp] theorem raise_trn (s : State) (e : DecodeError) : (s.raise e).trn = s.trn := rfl
@[simp] theorem raise_sig (s : State) (e : DecodeError) :
    (s.raise e).sig = { s.sig with result := some (.err e) } := rfl
@[simp] theorem raise_inputs (s : State) (e : DecodeError) : (s.raise e).inputs = s.inputs := rfl
@[simp] theorem raise_resets (s : State) (e : DecodeError) : (s.raise e).resets = s.resets := rfl
@[simp] theorem raise_freeEdges (s : State) (e : DecodeError) :
    (s.raise e).freeEdges = s.freeEdges := rfl

@[simp] theorem restart_hdr (s : State) : s.restart.hdr = s.hdr := rfl
@[simp] theorem restart_cnt (s : State) : s.restart.cnt = 0#10 := rfl
@[simp] theorem restart_phase (s : State) : s.restart.phase = .run := rfl
@[simp] theorem restart_trn (s : State) : s.restart.trn = s.trn := rfl
@[simp] theorem restart_sig (s : State) : s.restart.sig = Signals.idle := rfl
@[simp] theorem restart_inputs (s : State) : s.restart.inputs = s.inputs := rfl
@[simp] theorem restart_resets (s : State) : s.restart.resets = s.resets := rfl
@[simp] theorem restart_freeEdges (s : State) : s.restart.freeEdges = s.freeEdges := rfl

end Sys2Proof.Machine
end

