-- ==== Sys2Proof/Laws/Memory.lean ====
section
/-! SUPPORT. The trainer buffer: read after write, and the canonical form is kept. -/

namespace Sys2Proof.Machine

theorem Memory.read_write_same (m : List Host.Cell) (a : Nat) (v : Byte) :
    Memory.read (Memory.write m a v) a = some v := by
  induction m with
  | nil => simp [Memory.write, Memory.read]
  | cons c rest ih =>
    obtain ⟨x, b⟩ := c
    unfold Memory.write
    split
    · simp [Memory.read]
    · split
      · simp [Memory.read]
      · rename_i h
        simp [Memory.read, h, ih]

theorem Memory.read_write_other (m : List Host.Cell) {a x : Nat} (v : Byte) (hx : x ≠ a) :
    Memory.read (Memory.write m a v) x = Memory.read m x := by
  induction m with
  | nil => simp [Memory.write, Memory.read, hx.symm]
  | cons c rest ih =>
    obtain ⟨y, b⟩ := c
    unfold Memory.write
    split
    · simp [Memory.read, hx.symm]
    · split
      · rename_i h
        subst h
        simp [Memory.read, hx.symm]
      · simp [Memory.read, ih]

theorem Memory.risingFrom_mono {lo lo' : Nat} (m : List Host.Cell) (h : lo' ≤ lo)
    (hm : Memory.risingFrom lo m = true) : Memory.risingFrom lo' m = true := by
  cases m with
  | nil => rfl
  | cons c rest =>
    obtain ⟨y, b⟩ := c
    simp only [Memory.risingFrom, Bool.and_eq_true, decide_eq_true_eq] at hm ⊢
    exact ⟨⟨by omega, hm.1.2⟩, hm.2⟩

theorem Memory.risingFrom_write (m : List Host.Cell) {lo a : Nat} (v : Byte) (hlo : lo ≤ a)
    (ha : a < Config.trainerLen) (hm : Memory.risingFrom lo m = true) :
    Memory.risingFrom lo (Memory.write m a v) = true := by
  induction m generalizing lo with
  | nil => simp [Memory.write, Memory.risingFrom, hlo, ha]
  | cons c rest ih =>
    obtain ⟨y, b⟩ := c
    simp only [Memory.risingFrom, Bool.and_eq_true, decide_eq_true_eq] at hm
    unfold Memory.write
    split
    · rename_i h
      simp only [Memory.risingFrom, Bool.and_eq_true, decide_eq_true_eq]
      exact ⟨⟨hlo, ha⟩, ⟨by omega, hm.1.2⟩, hm.2⟩
    · split
      · rename_i h
        subst h
        simp only [Memory.risingFrom, Bool.and_eq_true, decide_eq_true_eq]
        exact ⟨⟨hlo, ha⟩, hm.2⟩
      · simp only [Memory.risingFrom, Bool.and_eq_true, decide_eq_true_eq]
        exact ⟨hm.1, ih (by omega) hm.2⟩

/-- A write to an address of TRN keeps the canonical form. -/
theorem Memory.wf_write (m : List Host.Cell) {a : Nat} (v : Byte) (ha : a < Config.trainerLen)
    (hm : Memory.wf m = true) : Memory.wf (Memory.write m a v) = true :=
  Memory.risingFrom_write m v (Nat.zero_le a) ha hm

@[simp] theorem Memory.wf_nil : Memory.wf [] = true := rfl

theorem reset_trn_wf : Memory.wf State.reset.trn = true := rfl

/-- In canonical form no address of TRN or above is listed. -/
theorem Memory.read_of_le (m : List Host.Cell) {lo x : Nat} (hm : Memory.risingFrom lo m = true)
    (hx : Config.trainerLen ≤ x) : Memory.read m x = none := by
  induction m generalizing lo with
  | nil => rfl
  | cons c rest ih =>
    obtain ⟨y, b⟩ := c
    simp only [Memory.risingFrom, Bool.and_eq_true, decide_eq_true_eq] at hm
    simp [Memory.read, show ¬ y = x by omega, ih hm.2]

/-! `TRN[a]` through the state's one reader. -/

@[simp] theorem trnByte_writeTrn_same (s : State) (a : Nat) (v : Byte) :
    (s.writeTrn a v).trnByte a = v := by
  simp [State.trnByte, Memory.read_write_same]

theorem trnByte_writeTrn_other (s : State) {a x : Nat} (v : Byte) (hx : x ≠ a) :
    (s.writeTrn a v).trnByte x = s.trnByte x := by
  simp [State.trnByte, Memory.read_write_other _ _ hx]

/-- TRN reads alike in two states that list the same cells under the same reset count. -/
theorem trnByte_congr {s t : State} (h : s.trn = t.trn) (hr : s.resets = t.resets) (a : Nat) :
    s.trnByte a = t.trnByte a := by
  simp [State.trnByte, h, hr]

@[simp] theorem trnByte_writeHdr (s : State) (i : Nat) (v : Byte) (a : Nat) :
    (s.writeHdr i v).trnByte a = s.trnByte a := rfl
@[simp] theorem trnByte_setCnt (s : State) (c : BitVec 10) (a : Nat) :
    (s.setCnt c).trnByte a = s.trnByte a := rfl
@[simp] theorem trnByte_setPhase (s : State) (p : Phase) (a : Nat) :
    (s.setPhase p).trnByte a = s.trnByte a := rfl
@[simp] theorem trnByte_drive (s : State) (f : Signals → Signals) (a : Nat) :
    (s.drive f).trnByte a = s.trnByte a := rfl
@[simp] theorem trnByte_setInputs (s : State) (x : List Stimulus) (a : Nat) :
    (s.setInputs x).trnByte a = s.trnByte a := rfl
@[simp] theorem trnByte_clearSignals (s : State) (a : Nat) :
    s.clearSignals.trnByte a = s.trnByte a := rfl
@[simp] theorem trnByte_restart (s : State) (a : Nat) : s.restart.trnByte a = s.trnByte a := rfl

end Sys2Proof.Machine
end

