-- ==== Sys2Proof/Laws/Run.lean ====
section
/-! SUPPORT. What one step and a run of edges do, said once. -/

namespace Sys2Proof.Machine

/-! ### Spec lemmas of the shared operations of PUSH -/

/-- `storePushed` with the constants of R9 in numbers. -/
theorem storePushed_eq (s : State) (din : Byte) : s.storePushed din =
    if s.cnt.toNat < 16 then s.writeHdr s.cnt.toNat din
    else if s.cnt.toNat < 528 ∧ trainerFlag s.hdr = true then
      s.writeTrn (s.cnt.toNat - 16) din
    else s := rfl

/-- `countPushed` with `CNT_MAX` in numbers. -/
theorem countPushed_eq (s : State) : s.countPushed =
    if s.cnt.toNat < 528 then (s.setCnt (s.cnt + 1#10)).clearSignals else s := rfl

theorem storePushed_hdr (s : State) (din : Byte) (k : Nat) (hk : k < 16) :
    (s.storePushed din).hdr[k] = if k = s.cnt.toNat then din else s.hdr[k] := by
  rw [storePushed_eq]
  split
  · rename_i h
    simp only [writeHdr_hdr]
    rw [Vector.getElem_setIfInBounds]
    simp only [eq_comm]
  · split <;> simp <;> omega

theorem storePushed_trnByte (s : State) (din : Byte) (a : Nat) :
    (s.storePushed din).trnByte a =
      if 16 ≤ s.cnt.toNat ∧ s.cnt.toNat < 528 ∧ trainerFlag s.hdr = true ∧ a = s.cnt.toNat - 16
      then din else s.trnByte a := by
  rw [storePushed_eq]
  by_cases h : s.cnt.toNat < 16
  · have : ¬ 16 ≤ s.cnt.toNat := by omega
    simp [h, this]
  · by_cases h2 : s.cnt.toNat < 528 ∧ trainerFlag s.hdr = true
    · have h16 : 16 ≤ s.cnt.toNat := by omega
      by_cases ha : a = s.cnt.toNat - 16
      · subst ha; simp [h, h2, h16]
      · simp [h, h2, ha, trnByte_writeTrn_other _ _ ha]
    · have : ¬ (16 ≤ s.cnt.toNat ∧ s.cnt.toNat < 528 ∧ trainerFlag s.hdr = true ∧
          a = s.cnt.toNat - 16) := fun ⟨_, h3, h4, _⟩ => h2 ⟨h3, h4⟩
      simp [h, h2, this]

/-- A store of PUSH touches `HDR` or `TRN` and nothing else. -/
theorem storePushed_rest (s : State) (din : Byte) :
    (s.storePushed din).cnt = s.cnt ∧ (s.storePushed din).phase = s.phase ∧
    (s.storePushed din).sig = s.sig ∧ (s.storePushed din).inputs = s.inputs ∧
    (s.storePushed din).resets = s.resets ∧ (s.storePushed din).freeEdges = s.freeEdges := by
  unfold State.storePushed
  split
  · exact ⟨rfl, rfl, rfl, rfl, rfl, rfl⟩
  · split <;> exact ⟨rfl, rfl, rfl, rfl, rfl, rfl⟩

/-- At 528 and above PUSH stores nothing. -/
theorem storePushed_of_full (s : State) (din : Byte) (h : 528 ≤ s.cnt.toNat) :
    s.storePushed din = s := by
  have h1 : ¬ s.cnt.toNat < 16 := by omega
  have h2 : ¬ s.cnt.toNat < 528 := by omega
  simp [storePushed_eq, h1, h2]

theorem countPushed_of_lt (s : State) (h : s.cnt.toNat < 528) :
    s.countPushed = (s.setCnt (s.cnt + 1#10)).clearSignals := by
  simp [countPushed_eq, h]

theorem countPushed_of_full (s : State) (h : 528 ≤ s.cnt.toNat) : s.countPushed = s := by
  have h2 : ¬ s.cnt.toNat < 528 := by omega
  simp [countPushed_eq, h2]

theorem cnt_succ (c : BitVec 10) (h : c.toNat < 528) : (c + 1#10).toNat = c.toNat + 1 := by
  rw [BitVec.toNat_add]; simp; omega

/-! ### The commands as functions of the state -/

/-- What a PUSH does to a state. -/
def afterPush (din : Byte) (s : State) : State :=
  if s.phase = .run then (s.storePushed din).countPushed else s

/-- What a command does to a state; an operation of layer 1 is none. -/
def afterCommand (s : State) (i : Instr) : State :=
  match i with
  | .push din => afterPush din s
  | .endInput => s.setPhase .done
  | .clr => s.restart
  | .reset => s.restart.loseContents
  | _ => s

/-- The commands. -/
def IsCommand (i : Instr) : Prop :=
  i = .nop ∨ (∃ din, i = .push din) ∨ i = .endInput ∨ i = .clr ∨ i = .reset

theorem setPhase_same (s : State) (h : s.phase = .done) : s.setPhase .done = s := by
  cases s; simp_all [State.setPhase]

/-- A command answers the state that `afterCommand` says. -/
theorem exec_command {i : Instr} (h : IsCommand i) (s : State) :
    exec i s = .next (afterCommand s i) := by
  obtain rfl | ⟨din, rfl⟩ | rfl | rfl | rfl := h
  · rfl
  · simp only [exec, execPush, afterCommand, afterPush]; cases s.phase <;> rfl
  · simp only [exec, execEndInput, afterCommand]
    cases hp : s.phase
    · rfl
    · simp [setPhase_same s hp]
  · rfl
  · rfl

/-- Pins always carry a command. -/
theorem decode_pinsWord (p : Pins) : ∃ i, decode (pinsWord p) = .ok i ∧ IsCommand i := by
  unfold pinsWord
  split
  · rename_i h
    exact ⟨.reset, by simp [decode, h], by simp [IsCommand]⟩
  · refine ⟨decodeCmd (p.cmd ++ p.din), rfl, ?_⟩
    unfold decodeCmd
    split <;> simp [IsCommand]

theorem countPushed_hdr (s : State) : s.countPushed.hdr = s.hdr := by
  unfold State.countPushed; split <;> rfl

theorem countPushed_trn (s : State) : s.countPushed.trn = s.trn := by
  unfold State.countPushed; split <;> rfl

theorem countPushed_trnByte (s : State) (a : Nat) : s.countPushed.trnByte a = s.trnByte a := by
  unfold State.countPushed; split <;> rfl

theorem afterPush_hdr (s : State) (din : Byte) (k : Nat) (hk : k < 16) :
    (afterPush din s).hdr[k] = if s.phase = .run ∧ s.cnt.toNat = k then din else s.hdr[k] := by
  unfold afterPush
  by_cases hp : s.phase = .run
  · simp only [hp, true_and, if_true, countPushed_hdr, storePushed_hdr, eq_comm]
  · simp [hp]

theorem afterPush_cnt (s : State) (din : Byte) :
    (afterPush din s).cnt = if s.phase = .run ∧ s.cnt.toNat < 528 then s.cnt + 1#10 else s.cnt := by
  unfold afterPush
  have hr := (storePushed_rest s din).1
  by_cases hp : s.phase = .run
  · by_cases hc : s.cnt.toNat < 528
    · rw [if_pos hp, if_pos ⟨hp, hc⟩, countPushed_of_lt _ (by rw [hr]; exact hc)]
      simp [hr]
    · rw [if_pos hp, if_neg (fun h => hc h.2), countPushed_of_full _ (by rw [hr]; omega), hr]
  · simp [hp]

theorem afterPush_sig (s : State) (din : Byte) :
    (afterPush din s).sig =
      if s.phase = .run ∧ s.cnt.toNat < 528 then Signals.idle else s.sig := by
  have hr := storePushed_rest s din
  simp only [afterPush, countPushed_eq, hr.1]
  by_cases h1 : s.phase = .run <;> by_cases h2 : s.cnt.toNat < 528 <;> simp [h1, h2, hr.2.2.1]

theorem afterPush_phase (s : State) (din : Byte) : (afterPush din s).phase = s.phase := by
  unfold afterPush State.countPushed
  have hr := (storePushed_rest s din).2.1
  split
  · split <;> simp [hr]
  · rfl

theorem afterPush_trnByte (s : State) (din : Byte) (a : Nat) :
    (afterPush din s).trnByte a =
      if s.phase = .run ∧ 16 ≤ s.cnt.toNat ∧ s.cnt.toNat < 528 ∧ trainerFlag s.hdr = true ∧
        a = s.cnt.toNat - 16 then din else s.trnByte a := by
  unfold afterPush
  by_cases hp : s.phase = .run
  · simp only [hp, true_and, if_true, countPushed_trnByte, storePushed_trnByte]
  · simp [hp]

theorem afterPush_sameOwn (s : State) (din : Byte) : (afterPush din s).SameOwn s := by
  have hr := storePushed_rest s din
  unfold afterPush State.countPushed
  split
  · split <;> exact ⟨hr.2.2.2.1, hr.2.2.2.2.1, hr.2.2.2.2.2⟩
  · exact ⟨rfl, rfl, rfl⟩

/-- A PUSH keeps TRN in canonical form. -/
theorem afterPush_trn_wf (s : State) (din : Byte) (h : Memory.wf s.trn = true) :
    Memory.wf (afterPush din s).trn = true := by
  unfold afterPush
  split
  · rw [countPushed_trn]
    rw [storePushed_eq]
    split
    · exact h
    · split
      · rename_i h1 h2
        refine Memory.wf_write _ _ ?_ h
        have h3 := h2.1
        change s.cnt.toNat - 16 < 512
        omega
      · exact h
  · exact h

theorem storePushed_setInputs (s : State) (din : Byte) (x : List Stimulus) :
    (s.setInputs x).storePushed din = (s.storePushed din).setInputs x := by
  simp only [storePushed_eq, setInputs_cnt, setInputs_hdr]
  by_cases h : s.cnt.toNat < 16
  · simp only [h, if_true]; rfl
  · simp only [h, if_false]
    by_cases h2 : s.cnt.toNat < 528 ∧ trainerFlag s.hdr = true
    · simp only [h2, and_self, if_true]; rfl
    · simp only [h2, if_false]

theorem countPushed_setInputs (s : State) (x : List Stimulus) :
    (s.setInputs x).countPushed = s.countPushed.setInputs x := by
  simp only [countPushed_eq, setInputs_cnt]
  by_cases h : s.cnt.toNat < 528
  · simp only [h, if_true]; rfl
  · simp only [h, if_false]

/-- What a command does does not depend on the stimuli to come, and leaves them. -/
theorem afterCommand_setInputs (i : Instr) (s : State) (x : List Stimulus) :
    afterCommand (s.setInputs x) i = (afterCommand s i).setInputs x := by
  cases i with
  | push din =>
    simp only [afterCommand, afterPush, setInputs_phase, storePushed_setInputs,
      countPushed_setInputs]
    split <;> rfl
  | _ => rfl

theorem foldl_afterCommand_setInputs (l : List Instr) (s : State) (x : List Stimulus) :
    l.foldl afterCommand (s.setInputs x) = (l.foldl afterCommand s).setInputs x := by
  induction l generalizing s with
  | nil => rfl
  | cons i l ih => simp only [List.foldl_cons, afterCommand_setInputs, ih]

/-! ### The step -/

/-- `headerWord` with the constant of R9 in numbers. -/
theorem headerWord_eq (s : State) (g : HdrGroup) : s.headerWord g =
    if s.sig.result.isSome then none
    else if g = .len ∨ 16 ≤ s.cnt.toNat then some (.hdr g s.hdr)
    else none := rfl

theorem step_edge (s : State) (p : Pins) (rest : List Stimulus) {i : Instr}
    (hs : s.inputs = .edge p :: rest) (hd : decode (pinsWord p) = .ok i) :
    step s = exec i (s.setInputs rest) := by
  simp [step, fetch, hs, hd]

theorem step_evaluate (s : State) (g : HdrGroup) (rest : List Stimulus)
    (hs : s.inputs = .evaluate g :: rest) :
    step s =
      match s.headerWord g with
      | none => .next (s.setInputs rest)
      | some e =>
        match decode e with
        | .ok i => exec i (s.setInputs rest)
        | .error _ => .next (s.setInputs rest) := by
  simp only [step, fetch, hs]
  cases s.headerWord g <;> rfl

theorem step_free (s : State) (hs : s.inputs = []) {i : Instr}
    (hd : decode (pinsWord (Config.freePins s.freeEdges)) = .ok i) :
    step s = exec i { s with freeEdges := s.freeEdges + 1 } := by
  simp [step, fetch, hs, hd]

/-- One step of a run. -/
theorem run_next (n : Nat) {s t : State} (h : step s = .next t) :
    Host.Core.run Sys2Proof.core (n + 1) s = Host.Core.run Sys2Proof.core n t := by
  have h' : Sys2Proof.core.step s = .next t := h
  simp only [Host.Core.run, h']

theorem commandsOf_cons (p : Pins) (ps : List Pins) {i : Instr}
    (hd : decode (pinsWord p) = .ok i) :
    commandsOf (p :: ps) = if i = .nop then commandsOf ps else i :: commandsOf ps := by
  have : commandOf p = if i = .nop then none else some i := by
    unfold commandOf; rw [hd]
    cases i <;> simp
  unfold commandsOf
  rw [List.filterMap_cons, this]
  by_cases hi : i = .nop <;> simp [hi]

theorem run_edges (ps : List Pins) (s : State) (hs : s.inputs = ps.map .edge) :
    Host.Core.run Sys2Proof.core ps.length s =
      .next (((commandsOf ps).foldl afterCommand s).setInputs []) := by
  induction ps generalizing s with
  | nil =>
    have : s.setInputs [] = s := by rw [← show s.inputs = [] from hs]; rfl
    simp [Host.Core.run, commandsOf, this]
  | cons p ps ih =>
    obtain ⟨i, hd, hc⟩ := decode_pinsWord p
    have hstep : Sys2Proof.core.step s = .next ((afterCommand s i).setInputs (ps.map .edge)) := by
      rw [← afterCommand_setInputs]
      exact (step_edge s p _ hs hd).trans (exec_command hc _)
    simp only [List.length_cons, Host.Core.run, hstep]
    refine (ih ((afterCommand s i).setInputs (ps.map .edge)) rfl).trans ?_
    rw [foldl_afterCommand_setInputs, setInputs_setInputs, commandsOf_cons p ps hd]
    by_cases hi : i = .nop
    · subst hi; rfl
    · simp [hi]

/-- A run over edges is the commands the pins carry, one after the other. -/
theorem runEdges_eq (ps : List Pins) (s : State) :
    runEdges ps s = .next (((commandsOf ps).foldl afterCommand s).setInputs []) := by
  rw [runEdges, run_edges ps _ rfl, State.givenEdges, foldl_afterCommand_setInputs,
    setInputs_setInputs]
  rfl

end Sys2Proof.Machine
end

