-- ==== Sys2Proof/Laws/Layer1.lean ====
section
/-! SUPPORT. What an operation of layer 1 can do to a state, said once. -/

namespace Sys2Proof.Machine

/-- Every instruction is an operation of layer 1 or a command. -/
theorem layerOne_or_command (i : Instr) : i.isLayer1 ∨ IsCommand i := by
  cases i <;> simp [Instr.isLayer1, encode, IsCommand]

theorem drive_same (s : State) : s.drive (fun g => g) = s := rfl

/-- An operation of layer 1 drives signals and does nothing else. -/
theorem exec_layerOne {i : Instr} (h : i.isLayer1) (s : State) :
    ∃ f, exec i s = .next (s.drive f) := by
  cases i with
  | lenchk => simp only [exec, execLenchk]; split <;> exact ⟨_, rfl⟩
  | magic m0 m1 m2 m3 => simp only [exec, execMagic]; split <;> exact ⟨_, rfl⟩
  | trainerCopy => simp only [exec, execTrainerCopy, finishTrainer]; split <;> exact ⟨_, rfl⟩
  | trainerAbsent => exact ⟨fun g => { g with trainer := some none }, rfl⟩
  | assemble =>
    simp only [exec, execAssemble]
    split
    · exact ⟨_, rfl⟩
    · exact ⟨fun g => g, rfl⟩
  | nop => exact absurd h (by simp [Instr.isLayer1, encode])
  | push din => exact absurd h (by simp [Instr.isLayer1, encode])
  | endInput => exact absurd h (by simp [Instr.isLayer1, encode])
  | clr => exact absurd h (by simp [Instr.isLayer1, encode])
  | reset => exact absurd h (by simp [Instr.isLayer1, encode])
  | _ => exact ⟨_, rfl⟩

theorem drive_sameBlock (s : State) (f : Signals → Signals) : (s.drive f).SameBlock s :=
  ⟨rfl, rfl, rfl, fun _ => rfl⟩

theorem drive_sameOwn (s : State) (f : Signals → Signals) : (s.drive f).SameOwn s :=
  ⟨rfl, rfl, rfl⟩

end Sys2Proof.Machine
end

