-- ==== Sys2Proof/Laws/RomSize.lean ====
section
/-! SUPPORT. The merged sizes, and what the exponent test makes of them. -/

namespace Sys2Proof.Machine

theorem prg_merge (b9 b4 : Byte) :
    (b4.setWidth 12 ||| (b9 &&& 0x0F#8).setWidth 12 <<< 8 : RawSize) =
      (b9.extractLsb' 0 4 ++ b4 : BitVec 12) := by
  have e : (b9 &&& 0x0F#8).setWidth 12 <<< 8 = (b9.extractLsb' 0 4 ++ 0#8 : BitVec 12) := by
    revert b9; decide
  rw [e]
  apply BitVec.eq_of_getLsbD_eq
  intro i hi
  simp only [BitVec.getLsbD_or, BitVec.getLsbD_append, BitVec.getLsbD_setWidth]
  by_cases h8 : i < 8 <;> simp [h8, hi]
  intro hb
  rw [BitVec.getLsbD_of_ge _ _ (by omega)] at hb
  cases hb

theorem chr_merge (b9 b5 : Byte) :
    (b5.setWidth 12 ||| (b9 &&& 0xF0#8).setWidth 12 <<< 4 : RawSize) =
      (b9.extractLsb' 4 4 ++ b5 : BitVec 12) := by
  have e : (b9 &&& 0xF0#8).setWidth 12 <<< 4 = (b9.extractLsb' 4 4 ++ 0#8 : BitVec 12) := by
    revert b9; decide
  rw [e]
  apply BitVec.eq_of_getLsbD_eq
  intro i hi
  simp only [BitVec.getLsbD_or, BitVec.getLsbD_append, BitVec.getLsbD_setWidth]
  by_cases h8 : i < 8 <;> simp [h8, hi]
  intro hb
  rw [BitVec.getLsbD_of_ge _ _ (by omega)] at hb
  cases hb

/-- The test of R80, in the high nibble. -/
theorem exponentForm_merged (hi : BitVec 4) (lo : Byte) :
    exponentForm (hi ++ lo : BitVec 12) = true ↔ hi = 0xF#4 := by
  rw [exponentForm, beq_iff_eq, show Config.expSelect.setWidth 12 = 0xF#12 from rfl,
    ← BitVec.toNat_inj, ← BitVec.toNat_inj, BitVec.toNat_ushiftRight, nibble_byte_toNat,
    Nat.shiftRight_eq_div_pow]
  have := lo.isLt
  simp
  omega

/-- A byte alone is a plain count (R80: "step (3) never fires"). -/
theorem exponentForm_plain (lo : Byte) : exponentForm (lo.setWidth 12) = false := by
  revert lo; decide

theorem reinterpret_merged (hi : BitVec 4) (lo : Byte) :
    reinterpret (hi ++ lo : BitVec 12) =
      if hi = 0xF#4 then expForm lo else plainMerged hi lo := by
  simp only [reinterpret, exponentForm_merged]
  split
  · rename_i h; subst h; rfl
  · rfl

theorem reinterpret_plain (lo : Byte) : reinterpret (lo.setWidth 12) = plainByte lo := by
  rw [reinterpret, exponentForm_plain, if_neg Bool.false_ne_true, plainByte]
  apply BitVec.eq_of_toNat_eq
  simp

theorem prgRaw_extended {h : Header} (he : isExtended h = true) :
    prgRaw h = h[9].extractLsb' 0 4 ++ h[4] := by
  simp only [prgRaw, (isExtended_iff h).1 he, if_true, prg_merge]

theorem chrRaw_extended {h : Header} (he : isExtended h = true) :
    chrRaw h = h[9].extractLsb' 4 4 ++ h[5] := by
  simp only [chrRaw, (isExtended_iff h).1 he, if_true, chr_merge]

end Sys2Proof.Machine
end

