-- ==== Sys2Proof/Laws/Table.lean ====
section
/-! SUPPORT. What each mask of the operation table says of a header. -/

namespace Sys2Proof.Machine

theorem and_ff (b : Byte) : b &&& 255#8 = b := by revert b; decide

theorem marker_mask (b : Byte) : b &&& 12#8 = 8#8 ↔ b.extractLsb' 2 2 = 2#2 := by
  revert b; decide

theorem fits_signature (w : HWord) :
    w &&& 0xFFFFFFFF#128 = 0x1A53454E#128 ↔ signatureOk (headerOfWord w) = true := by
  rw [mask_iff_bytes, forall_byte_iff, signatureOk_iff]
  simp [and_ff]

theorem fits_extended (w : HWord) :
    w &&& 0xC000000FFFFFFFF#128 = 0x80000001A53454E#128 ↔
      signatureOk (headerOfWord w) = true ∧ isExtended (headerOfWord w) = true := by
  rw [mask_iff_bytes, forall_byte_iff, signatureOk_iff, isExtended, beq_iff_eq,
    Field.dialectMark, Config.dialectMark]
  simp [and_ff, marker_mask, and_assoc]

theorem fits_prgExp (w : HWord) :
    w &&& 0xF000C000000FFFFFFFF#128 = 0xF00080000001A53454E#128 ↔
      signatureOk (headerOfWord w) = true ∧ isExtended (headerOfWord w) = true ∧
        Field.prgHi (headerOfWord w) = 0xF#4 := by
  rw [mask_iff_bytes, forall_byte_iff, signatureOk_iff, isExtended, beq_iff_eq,
    Field.dialectMark, Config.dialectMark, Field.prgHi]
  have e : ∀ b : Byte, b &&& 15#8 = 15#8 ↔ b.extractLsb' 0 4 = 15#4 := by decide
  simp [and_ff, marker_mask, e, and_assoc]

theorem fits_chrExp (w : HWord) :
    w &&& 0xF0000C000000FFFFFFFF#128 = 0xF000080000001A53454E#128 ↔
      signatureOk (headerOfWord w) = true ∧ isExtended (headerOfWord w) = true ∧
        Field.chrHi (headerOfWord w) = 0xF#4 := by
  rw [mask_iff_bytes, forall_byte_iff, signatureOk_iff, isExtended, beq_iff_eq,
    Field.dialectMark, Config.dialectMark, Field.chrHi]
  have e : ∀ b : Byte, b &&& 240#8 = 240#8 ↔ b.extractLsb' 4 4 = 15#4 := by decide
  simp [and_ff, marker_mask, e, and_assoc]

theorem fits_trainer (w : HWord) :
    w &&& 0x40000FFFFFFFF#128 = 0x400001A53454E#128 ↔
      signatureOk (headerOfWord w) = true ∧ Field.trainerFlag (headerOfWord w) = 1#1 := by
  rw [mask_iff_bytes, forall_byte_iff, signatureOk_iff, Field.trainerFlag]
  have e : ∀ b : Byte, b &&& 4#8 = 4#8 ↔ b.extractLsb' 2 1 = 1#1 := by decide
  simp [and_ff, e, and_assoc]

end Sys2Proof.Machine
end

