-- ==== Sys2Proof/Tests/Slice0.lean ====
section
/-! SUPPORT. Small tests, and for each statement with hypotheses an input that meets them. Expected
values are those of 95_test_vectors.md, cited by section, or written from the encoding rules. -/

namespace Sys2Proof.Tests

open Sys2Proof Sys2Proof.Machine

/-- The state that an outcome answers. -/
def after (o : Host.Outcome State Fault Refusal) : Option State :=
  match o with
  | .next t => some t
  | _ => none

/-- A state with a header, a count and a phase, everything else as after reset. -/
def block (h : Header) (cnt : BitVec 10) (phase : Phase) : State :=
  { State.reset with hdr := h, cnt := cnt, phase := phase }

/-- A header with the signature, bytes 4 to 9 and 12 (`hdr{...}` of R61). -/
abbrev signed := signedHeader

/-- `hdr{}`: every byte after the signature 0. -/
def plain : Header := signed 0 0 0 0 0 0 0

/-- `hdr{7=0x08}`, an `Extended` header. -/
def extended : Header := signed 0 0 0 0x08 0 0 0

/-- Pins that carry the command word `cmd ++ din` with `rst` = 0. -/
def pins (cmd : BitVec 2) (din : Byte) : Pins := { rst := 0#1, cmd := cmd, din := din }

/-! ### The constants -/

/-- The table of R9, value by value. -/
theorem test_constants :
    Config.headerLen = 16 ∧ Config.magic.toList = [0x4E#8, 0x45#8, 0x53#8, 0x1A#8] ∧
    Config.magicLen = 4 ∧ Config.trainerLen = 512 ∧ Config.trainerBase = 16 ∧
    Config.trainerEnd = 528 ∧ Config.trainerErrIndex = 6 ∧ Config.dialectMark = 0b10#2 ∧
    Config.expSelect = 0xF#4 ∧ Config.prgUnit = 16384 ∧ Config.chrUnit = 8192 ∧
    Config.mapperW = 12 := by decide

/-! ### Ill-formed terms -/

theorem test_wellFormed_dialectL_refuses_the_marker :
    (Instr.dialectL 0b10#2).wellFormed = false := by decide
theorem test_wellFormed_prgsizeEP_refuses_0xF :
    (Instr.prgsizeEP 0x05#8 0xF#4).wellFormed = false := by decide
theorem test_wellFormed_chrsizeEP_refuses_0xF :
    (Instr.chrsizeEP 0x05#8 0xF#4).wellFormed = false := by decide

/-! ### Decoding: words written out from R49, R50 and R51, one for each constructor

A header word shows its bytes 15 down to 4 before the mark, bytes 3 to 0 after it. -/

theorem test_decode_lenchk :
    decode (.hdr .len (headerOfWord 0x000000000000000000000000_00000000#128)) = .ok .lenchk := by
  decide
theorem test_decode_magic :
    decode (.hdr .magic (headerOfWord 0x000000000000000000000000_1B53454E#128)) =
      .ok (.magic 0x4E#8 0x45#8 0x53#8 0x1B#8) := by decide
theorem test_decode_dialectE :
    decode (.hdr .dialect (headerOfWord 0x0000000000000000080000FF_1A53454E#128)) =
      .ok .dialectE := by decide
theorem test_decode_dialectL :
    decode (.hdr .dialect (headerOfWord 0x0000000000000000F7000000_1A53454E#128)) =
      .ok (.dialectL 0b01#2) := by decide
theorem test_decode_vmirror :
    decode (.hdr .vmirror (headerOfWord 0x000000000000000000010000_1A53454E#128)) =
      .ok (.vmirror 1#1) := by decide
theorem test_decode_battery :
    decode (.hdr .battery (headerOfWord 0x000000000000000000020000_1A53454E#128)) =
      .ok (.battery 1#1) := by decide
theorem test_decode_trainerf :
    decode (.hdr .trainerf (headerOfWord 0x000000000000000000040000_1A53454E#128)) =
      .ok (.trainerf 1#1) := by decide
theorem test_decode_fourscr :
    decode (.hdr .fourscr (headerOfWord 0x000000000000000000080000_1A53454E#128)) =
      .ok (.fourscr 1#1) := by decide
theorem test_decode_mapperE :
    decode (.hdr .mapper (headerOfWord 0x00000000000000CA3BE10000_1A53454E#128)) =
      .ok (.mapperE 0xE#4 0x3#4 0xA#4) := by decide
theorem test_decode_mapperL :
    decode (.hdr .mapper (headerOfWord 0x00000000000000CA33E10000_1A53454E#128)) =
      .ok (.mapperL 0xE#4 0x3#4) := by decide
theorem test_decode_submapE :
    decode (.hdr .submap (headerOfWord 0x00000000000000CA08000000_1A53454E#128)) =
      .ok (.submapE 0xC#4) := by decide
theorem test_decode_timingE :
    decode (.hdr .timing (headerOfWord 0x0000000D0000000008000000_1A53454E#128)) =
      .ok (.timingE 0b01#2) := by decide
theorem test_decode_prgsizeEX :
    decode (.hdr .prgsize (headerOfWord 0x00000000000012F0080000FF_1A53454E#128)) =
      .ok (.prgsizeEP 0xFF#8 0x2#4) ∧
    decode (.hdr .prgsize (headerOfWord 0x0000000000001F0008000005_1A53454E#128)) =
      .ok (.prgsizeEX 0x05#8) := by decide
theorem test_decode_prgsizeL :
    decode (.hdr .prgsize (headerOfWord 0x0000000000001F0000000005_1A53454E#128)) =
      .ok (.prgsizeL 0x05#8) := by decide
theorem test_decode_chrsizeEX :
    decode (.hdr .chrsize (headerOfWord 0x000000000000F10008000500_1A53454E#128)) =
      .ok (.chrsizeEX 0x05#8) := by decide
theorem test_decode_chrsizeEP :
    decode (.hdr .chrsize (headerOfWord 0x0000000000003F0008001000_1A53454E#128)) =
      .ok (.chrsizeEP 0x10#8 0x3#4) := by decide
theorem test_decode_chrsizeL :
    decode (.hdr .chrsize (headerOfWord 0x000000000000F10000000500_1A53454E#128)) =
      .ok (.chrsizeL 0x05#8) := by decide
theorem test_decode_trainerCopy :
    decode (.hdr .trainer (headerOfWord 0x000000000000000000040000_1A53454E#128)) =
      .ok .trainerCopy := by decide
theorem test_decode_trainerAbsent :
    decode (.hdr .trainer (headerOfWord 0x000000000000000000FB0000_1A53454E#128)) =
      .ok .trainerAbsent := by decide
theorem test_decode_assemble :
    decode (.hdr .assemble (headerOfWord 0x000000000000000000000000_1A53454E#128)) =
      .ok .assemble := by decide
theorem test_decode_commands :
    decodeTableWord 16 0b00_00000000 = some .nop ∧
    decodeTableWord 16 0b01_01001110 = some (.push 0x4E#8) ∧
    decodeTableWord 16 0b10_11111111 = some .endInput ∧
    decodeTableWord 16 0b11_00000000 = some .clr ∧
    decodeTableWord 8 0b1 = some .reset := by decide
theorem test_decode_refuses :
    decode (.hdr .vmirror (headerOfWord 0#128)) = .error (.noRow .vmirror) ∧
    decode (.hdr .submap (headerOfWord 0x1A53454E#128)) = .error (.noRow .submap) ∧
    decode (.rst 0#1) = .error .rstLow ∧
    decodeTableWord 16 1024 = none := by decide

/-! ### One step of each command (2.6, 3) -/

/-- 2.6: `CNT=0, RUN`, `PUSH 0x4E`. -/
theorem test_push_first_byte :
    after (exec (.push 0x4E#8) State.reset) =
      some { State.reset with
        hdr := (Vector.replicate 16 0x00#8).setIfInBounds 0 0x4E#8, cnt := 1#10 } := by decide
/-- 2.6: `CNT=527, RUN, HDR[6]=0x04`, `PUSH 0xCD`. -/
theorem test_push_last_trainer_byte :
    after (exec (.push 0xCD#8) (block (signed 0 0 0x04 0 0 0 0) 527#10 .run)) =
      some { block (signed 0 0 0x04 0 0 0 0) 528#10 .run with trn := [(511, 0xCD#8)] } := by decide
/-- 2.6: `CNT=0, RUN`, `END`: `status=0xA0`. -/
theorem test_end_on_nothing :
    (after (exec .endInput State.reset)).map (fun t => (t.phase, (outputs t 0#9).status)) =
      some (.done, 0xA0#8) := by decide
/-- 2.6: `CNT=16, RUN`, `HDR = hdr{}`, `END`: `status=0xC0`. -/
theorem test_end_on_header :
    (after (exec .endInput (block plain 16#10 .run))).map (fun t => outputs t 0#9) =
      some (Outputs.only 0xC0#8) := by decide
/-- 2.6: `CLR` from any state. -/
theorem test_clr_keeps_hdr :
    after (exec .clr (block plain 16#10 .done)) = some (block plain 0#10 .run) := by decide
/-- 2.6: `NOP` in `DONE`. -/
theorem test_nop_in_done :
    after (exec .nop (block plain 16#10 .done)) = some (block plain 16#10 .done) := by decide
/-- P5 step 1: `rst=1` with `cmd=0b01`, `din=0x4E` is `RESET`, not `PUSH`. -/
theorem test_reset_overrides_push :
    (after (step { block plain 16#10 .done with
      inputs := [.edge { rst := 1#1, cmd := 0b01#2, din := 0x4E#8 }] })).map
        (fun t => (t.cnt, t.phase)) = some (0#10, .run) := by decide

/-! ### One step of each operation of layer 1 (2.1 to 2.5) -/

/-- 2.1: `n = 15` is `TooShort`, 16 is not. -/
theorem test_lenchk_boundary :
    (after (exec .lenchk (block plain 15#10 .run))).map (fun t => t.sig.result) =
      some (some (.err .tooShort)) ∧
    (after (exec .lenchk (block plain 16#10 .run))).map (fun t => t.sig.lenPassed) = some true := by
  decide
/-- 2.1: `4E 45 00 00`: the first mismatch only. -/
theorem test_magic_first_mismatch :
    (after (exec (.magic 0x4E#8 0x45#8 0x00#8 0x00#8) State.reset)).map (fun t => t.sig.result) =
      some (some (.err (.invalidHeader 2))) := by decide
/-- 2.1: the signature passes. -/
theorem test_magic_passes :
    (after (exec (.magic 0x4E#8 0x45#8 0x53#8 0x1A#8) State.reset)).map
      (fun t => t.sig.magicPassed) = some true := by decide
/-- R67, R68. -/
theorem test_dialect_rows :
    (after (exec .dialectE State.reset)).map (fun t => t.sig.dialect) = some (some .extended) ∧
    (after (exec (.dialectL 0b11#2) State.reset)).map (fun t => t.sig.dialect) =
      some (some .legacy) := by decide
/-- R70 to R73. -/
theorem test_flag_rows :
    (after (exec (.vmirror 1#1) State.reset)).map (fun t => t.sig.verticalMirroring) =
      some (some true) ∧
    (after (exec (.battery 1#1) State.reset)).map (fun t => t.sig.battery) = some (some true) ∧
    (after (exec (.trainerf 0#1) State.reset)).map (fun t => t.sig.trainerFlag) =
      some (some false) ∧
    (after (exec (.fourscr 1#1) State.reset)).map (fun t => t.sig.fourScreen) =
      some (some true) := by decide
/-- S5, S6. -/
theorem test_mapper_rows :
    (after (exec (.mapperL 0xE#4 0x3#4) State.reset)).map (fun t => t.sig.mapper) =
      some (some 0x03E#12) ∧
    (after (exec (.mapperE 0xE#4 0x3#4 0xA#4) State.reset)).map (fun t => t.sig.mapper) =
      some (some 0xA3E#12) := by decide
/-- P2: submapper `0x0`; 2.2: timing `0b11` is `Dendy`. -/
theorem test_dropped_rows :
    (after (exec (.submapE 0xF#4) State.reset)).map (fun t => t.sig.submapper) =
      some (some 0xF#4) ∧
    (after (exec (.timingE 0b11#2) State.reset)).map (fun t => t.sig.timing) =
      some (some .dendy) := by decide
/-- 2.4: `UNPACK(0xF05)` = 6, `UNPACK(0xFFF)` = 64563604257983430656. -/
theorem test_prgsizeEX :
    (after (exec (.prgsizeEX 0x05#8) State.reset)).map (fun t => (t.sig.prg, t.sig.prgExp)) =
      some (some 6#66, some true) ∧
    (after (exec (.prgsizeEX 0xFF#8) State.reset)).map (fun t => t.sig.prg) =
      some (some 64563604257983430656#66) := by decide
/-- 2.4: `34 10 00 08 00 32`: 564 and 784; `FF FF`: 255. -/
theorem test_plain_sizes :
    (after (exec (.prgsizeEP 0x34#8 0x2#4) State.reset)).map (fun t => t.sig.prg) =
      some (some 564#66) ∧
    (after (exec (.chrsizeEP 0x10#8 0x3#4) State.reset)).map (fun t => t.sig.chr) =
      some (some 784#66) ∧
    (after (exec (.prgsizeL 0xFF#8) State.reset)).map (fun t => t.sig.prg) =
      some (some 255#66) ∧
    (after (exec (.chrsizeL 0xFF#8) State.reset)).map (fun t => t.sig.chr) =
      some (some 255#66) := by decide
/-- 2.4: `UNPACK(0xF29)` = 3072, `UNPACK(0xF7F)` = 15032385536. -/
theorem test_chrsizeEX :
    (after (exec (.chrsizeEX 0x29#8) State.reset)).map (fun t => (t.sig.chr, t.sig.chrExp)) =
      some (some 3072#66, some true) ∧
    (after (exec (.chrsizeEX 0x7F#8) State.reset)).map (fun t => t.sig.chr) =
      some (some 15032385536#66) := by decide
/-- 2.5: 511 trailing bytes are one too few. -/
theorem test_trainerCopy_short :
    (after (exec .trainerCopy (block (signed 0 0 0x04 0 0 0 0) 527#10 .run))).map
      (fun t => t.sig.result) = some (some (.err (.invalidHeader 6))) := by decide
/-- 2.5, 2.6: with 512 of them the last one is `TRN[511]`. -/
theorem test_trainerCopy_last_byte :
    (after (exec .trainerCopy
      { block (signed 0 0 0x04 0 0 0 0) 528#10 .run with trn := [(511, 0xCD#8)] })).map
        (fun t => t.sig.trainer.map (Option.map fun b => b[511])) =
      some (some (some 0xCD#8)) := by
  simp [after, exec, execTrainerCopy, trainerCopy, finishTrainer, block, State.inputLen,
    Config.trainerBase, Config.trainerLen, State.inputByte, trainerOf, State.trnByte, Memory.read]
/-- R94. -/
theorem test_trainerAbsent :
    (after (exec .trainerAbsent State.reset)).map (fun t => t.sig.trainer) =
      some (some none) := by decide
/-- The six operands of ASSEMBLE in P1. -/
def operandsP1 : Signals :=
  { Signals.idle with
    prg := some 2#66, chr := some 1#66, mapper := some 0x001#12, verticalMirroring := some true,
    fourScreen := some false, trainer := some none }

/-- P1: `Ok{prg=2, chr=1, mapper=0x001, vm=true, fs=false, trainer=None}`. -/
theorem test_assemble :
    (after (exec .assemble (State.reset.drive fun _ => operandsP1))).map (fun t => t.sig.result) =
      some (some (.ok (assemble 2#66 1#66 0x001#12 true false none))) := by decide

/-! ### Decode on whole headers (2.2 to 2.4) -/

/-- 2.4: `05 05 00 08 00 1F`: PRG exponent, CHR plain. -/
theorem test_sizes_are_independent :
    (prgUnits (signed 0x05 0x05 0 0x08 0 0x1F 0), chrUnits (signed 0x05 0x05 0 0x08 0 0x1F 0)) =
      (6#66, 261#66) := by decide
/-- 2.2: `05 00 00 0C FF FF`: marker `0b11` is `Legacy`. -/
theorem test_marker_11_is_legacy :
    prgUnits (signed 0x05 0 0 0x0C 0xFF 0xFF 0) = 5#66 ∧
    mapper (signed 0x05 0 0 0x0C 0xFF 0xFF 0) = 0x000#12 := by decide
/-- 2.3: `0x40 0x0B 0x01`: `0x104`. -/
theorem test_mapper_extended : mapper (signed 0 0 0x40 0x0B 0x01 0 0) = 0x104#12 := by decide

/-! ### Inputs that meet the hypotheses of the statements, every clause at a boundary -/

/-- `CNT` at the values where the clauses about it meet. -/
theorem witness_cnt_boundaries :
    (block plain 15#10 .run).cnt.toNat < 16 ∧ 16 ≤ (block plain 16#10 .run).cnt.toNat ∧
    (block plain 527#10 .run).cnt.toNat < 528 ∧ 528 ≤ (block plain 528#10 .run).cnt.toNat := by
  decide

/-- A signature with both markers. -/
theorem witness_HasSignature :
    HasSignature plain ∧ ¬ MarkedExtended plain ∧ HasSignature extended ∧
      MarkedExtended extended := by decide

theorem witness_EncodeThenDecodeGivesTheInstruction :
    (Instr.dialectL 0b11#2).WellFormed ∧ (Instr.prgsizeEP 0xFF#8 0xE#4).WellFormed ∧
      (Instr.chrsizeEP 0xFF#8 0xE#4).WellFormed ∧ Instr.reset.WellFormed := by decide

theorem witness_DecodedInstructionsAreWellFormed :
    decode (.hdr .prgsize (signed 0xFF 0 0 0x08 0 0x0E 0)) = .ok (.prgsizeEP 0xFF#8 0xE#4) ∧
      decode (.rst 1#1) = .ok .reset ∧ decode (.cmd 0x14E#10) = .ok (.push 0x4E#8) := by decide

theorem witness_HeaderRowIsTheTablesLowestPriorityMatch : HdrGroup.len ≠ HdrGroup.magic := by
  decide

theorem witness_PinsCarryTheCommandTheirCodeNames :
    ({ rst := 1#1, cmd := 0b01#2, din := 0x4E#8 } : Pins).rst = 1#1 ∧
    (pins 0b00#2 0xFF#8).rst = 0#1 ∧ (pins 0b00#2 0xFF#8).cmd = 0b00#2 ∧
    (pins 0b01#2 0xFF#8).cmd = 0b01#2 ∧ (pins 0b10#2 0xFF#8).cmd = 0b10#2 ∧
    (pins 0b11#2 0xFF#8).cmd = 0b11#2 := by decide

/-- Listed pins, and free ones after the list. -/
theorem witness_StepRunsTheCommandOnThePins :
    decode (pinsWord (pins 0b10#2 0#8)) = .ok .endInput ∧
    (State.reset.givenEdges [pins 0b10#2 0#8]).inputs = .edge (pins 0b10#2 0#8) :: [] ∧
    State.reset.inputs = [] ∧
    ∃ i, decode (pinsWord (Config.freePins State.reset.freeEdges)) = .ok i :=
  ⟨by decide, rfl, rfl, (decode_pinsWord _).imp fun _ h => h.1⟩

/-- A group that runs with `CNT` = 16, LENCHK with `CNT` = 0, a finished decode, `CNT` = 15, and a
group that selects nothing. -/
theorem witness_StepRunsTheRowAGroupSelects :
    ((block plain 16#10 .run).setInputs [.evaluate .dialect]).inputs = .evaluate .dialect :: [] ∧
    (block plain 16#10 .run).sig.result = none ∧ 16 ≤ (block plain 16#10 .run).cnt.toNat ∧
    decode (.hdr .dialect plain) = .ok (.dialectL 0#2) ∧
    decode (.hdr .len State.reset.hdr) = .ok .lenchk ∧
    (State.reset.raise .tooShort).sig.result ≠ none ∧
    HdrGroup.dialect ≠ HdrGroup.len ∧ (block plain 15#10 .run).cnt.toNat < 16 ∧
    decode (.hdr .submap plain) = .error (.noRow .submap) := by decide

theorem witness_PlacedWordRunsAtTheNextStep :
    decodeTableWord 16 0x14E = some (.push 0x4E#8) ∧ decodeTableWord 8 1 = some .reset ∧
      decodeTableWord 32 0x1A53454E = some (.magic 0x4E#8 0x45#8 0x53#8 0x1A#8) := by decide

/-- Header bytes 0 and 15, trainer bytes 0 and 511 with the flag, the flag clear, saturation. -/
theorem witness_PushStoresTheByteAndCounts :
    (block plain 0#10 .done).phase = .done ∧ (block plain 528#10 .run).phase = .run ∧
    528 ≤ (block plain 528#10 .run).cnt.toNat ∧
    (block (signed 0 0 0x04 0 0 0 0) 16#10 .run).hdr[6].getLsbD 2 = true ∧
    16 ≤ (block (signed 0 0 0x04 0 0 0 0) 16#10 .run).cnt.toNat ∧
    (block (signed 0 0 0x04 0 0 0 0) 527#10 .run).cnt.toNat < 528 ∧
    (block (signed 0 0 0xFB 0 0 0 0) 527#10 .run).hdr[6].getLsbD 2 = false ∧
    (block plain 15#10 .run).cnt.toNat < 16 := by decide

theorem witness_EndShowsTheDecode : (block plain 16#10 .done).phase = .done := rfl

theorem witness_CommandsClearTheSignalsTheyMakeStale :
    exec .clr State.reset = .next State.reset ∧
    exec (.push 0#8) (block plain 528#10 .run) = .next (block plain 528#10 .run) ∧
    exec .endInput State.reset = .next { State.reset with phase := .done } ∧
    exec .nop State.reset = .next State.reset ∧
    ∃ t, exec .reset State.reset = .next t :=
  ⟨rfl, rfl, rfl, rfl, _, rfl⟩

/-- A PUSH changes `HDR[15]`. -/
theorem witness_OnlyPushAndResetWriteHdr :
    ∃ t, exec (.push 0x55#8) (block plain 15#10 .run) = .next t ∧
      t.hdr[15] ≠ (block plain 15#10 .run).hdr[15] := ⟨_, rfl, by decide⟩

/-- A PUSH moves `CNT` from 527, CLR from 528. -/
theorem witness_OnlyPushClrAndResetMoveCnt :
    (∃ t, exec (.push 0x55#8) (block plain 527#10 .run) = .next t ∧ t.cnt ≠ 527#10) ∧
    ∃ t, exec .clr (block plain 528#10 .run) = .next t ∧ t.cnt ≠ 528#10 :=
  ⟨⟨_, rfl, by decide⟩, _, rfl, by decide⟩

/-- END leaves `RUN`, CLR leaves `DONE`. -/
theorem witness_OnlyEndClrAndResetMovePhase :
    (∃ t, exec .endInput (block plain 16#10 .run) = .next t ∧ t.phase ≠ .run) ∧
    ∃ t, exec .clr (block plain 16#10 .done) = .next t ∧ t.phase ≠ .done :=
  ⟨⟨_, rfl, by decide⟩, _, rfl, by decide⟩

/-- A PUSH changes `TRN[511]`. -/
theorem witness_OnlyPushAndResetWriteTrn :
    ∃ t, exec (.push 0x55#8)
        { block (signed 0 0 0x04 0 0 0 0) 527#10 .run with trn := [(511, 0x00#8)] } = .next t ∧
      t.trnByte 511 = 0x55#8 ∧
      ({ block (signed 0 0 0x04 0 0 0 0) 527#10 .run with trn := [(511, 0x00#8)] } :
        State).trnByte 511 = 0x00#8 := ⟨_, rfl, rfl, rfl⟩

/-- A decode that is too short, one that fails at byte 6, one that succeeds, one that still runs. -/
theorem witness_OutputsShowDecodeOfTheBytesPushed :
    (block plain 15#10 .run).phase = .run ∧
    decodeInput (block plain 15#10 .done).cnt.toNat (block plain 15#10 .done).inputByte =
      .err .tooShort ∧
    decodeInput (block (signed 0 0 0x04 0 0 0 0) 527#10 .done).cnt.toNat
      (block (signed 0 0 0x04 0 0 0 0) 527#10 .done).inputByte = .err (.invalidHeader 6) ∧
    decodeInput (block plain 16#10 .done).cnt.toNat (block plain 16#10 .done).inputByte =
      .ok (assemble 0#66 0#66 0#12 false false none) := by decide

theorem witness_NoDescriptorWithoutSuccess :
    (outputs (block plain 15#10 .done) 511#9).status.getLsbD 6 = false ∧
    (outputs (block plain 16#10 .done) 0#9).status.getLsbD 7 = true := by decide

/-- In `DONE`: a PUSH, an END and a NOP. -/
theorem witness_FinishedDecodeIsFrozen :
    (block plain 16#10 .done).phase = .done ∧
    commandsOf [pins 0b01#2 0x77#8, pins 0b10#2 0#8, pins 0b00#2 0#8] =
      [.push 0x77#8, .endInput] ∧
    Instr.startsNoDecode (.push 0x77#8) ∧ Instr.startsNoDecode .endInput :=
  ⟨rfl, by decide, by simp [Instr.startsNoDecode], by simp [Instr.startsNoDecode]⟩

/-- The pins of seventeen pushes with the trainer flag set, so that the header clause and the
trainer clause both speak. -/
def seventeen : List Byte :=
  [0x4E#8, 0x45#8, 0x53#8, 0x1A#8, 0#8, 0#8, 0x04#8, 0#8, 0#8, 0#8, 0#8, 0#8, 0#8, 0#8, 0#8, 0#8,
    0xAB#8]

theorem witness_PushedBytesAreHeld :
    commandsOf (pins 0b11#2 0#8 :: seventeen.map (pins 0b01#2)) =
      .clr :: seventeen.map Instr.push ∧
    0 < seventeen.length ∧ 15 < seventeen.length ∧ 16 < seventeen.length ∧
    (seventeen.getD 6 0#8).getLsbD 2 = true := by decide

/-- The whole of the input (`j` = its length) and, for one longer than 528 bytes, a prefix of
528. -/
theorem witness_PortMachineComputesDecode :
    commandsOf (pins 0b11#2 0#8 ::
        ((seventeen.take 17).map (pins 0b01#2) ++ [pins 0b00#2 0#8, pins 0b10#2 0#8])) =
      decodeCommands .clr (seventeen.take 17) ∧
    min seventeen.length 528 ≤ 17 ∧ 17 ≤ seventeen.length ∧
    commandsOf [pins 0b01#2 0x77#8] = [.push 0x77#8] ∧
    min (List.replicate 529 0#8 : List Byte).length 528 ≤ 528 := by
  refine ⟨by decide, by decide, by decide, by decide, ?_⟩
  rw [List.length_replicate]
  decide

theorem witness_EarlierContentsNeverReachAnOutput :
    commandsOf [{ rst := 1#1, cmd := 0#2, din := 0#8 }, pins 0b10#2 0#8] =
      .reset :: [.endInput] := by decide

/-- Two states that differ in their signals alone. -/
theorem witness_SignalsNeverReachThePorts :
    State.reset.SameBlock (State.reset.raise .tooShort) ∧
    State.reset.sig ≠ (State.reset.raise .tooShort).sig ∧
    State.reset.resets = (State.reset.raise .tooShort).resets :=
  ⟨⟨rfl, rfl, rfl, fun _ => rfl⟩, by decide, rfl⟩

theorem witness_LayerOneWritesNoElement :
    Instr.lenchk.isLayer1 ∧ Instr.assemble.isLayer1 ∧ ¬ Instr.clr.isLayer1 ∧
    ∃ t, exec .lenchk State.reset = .next t :=
  ⟨trivial, trivial, id, _, rfl⟩

/-- Byte 9 at both sides of the exponent test, for PRG and for CHR. -/
theorem witness_size_rows :
    HasSignature (signed 0 0 0 0x08 0 0x0F 0) ∧ MarkedExtended (signed 0 0 0 0x08 0 0x0F 0) ∧
    (signed 0 0 0 0x08 0 0x0F 0)[9].extractLsb' 0 4 = 0xF#4 ∧
    (signed 0 0 0 0x08 0 0x0F 0)[9].extractLsb' 4 4 ≠ 0xF#4 ∧
    (signed 0 0 0 0x08 0 0xFE 0)[9].extractLsb' 4 4 = 0xF#4 ∧
    (signed 0 0 0 0x08 0 0xFE 0)[9].extractLsb' 0 4 ≠ 0xF#4 ∧
    HasSignature (signed 0 0 0 0x08 0 0xFE 0) ∧ MarkedExtended (signed 0 0 0 0x08 0 0xFE 0) := by
  decide

/-- Every clause of MAGIC at a byte that differs in one bit. -/
theorem witness_MagicReportsTheFirstMismatch :
    (0x4F#8 : Byte) ≠ 0x4E#8 ∧ (0x44#8 : Byte) ≠ 0x45#8 ∧ (0x52#8 : Byte) ≠ 0x53#8 ∧
      (0x1B#8 : Byte) ≠ 0x1A#8 := by decide

theorem witness_TrainerRowsCopyOrFail :
    HasSignature (signed 0 0 0x04 0 0 0 0) ∧
    (signed 0 0 0x04 0 0 0 0)[6].getLsbD 2 = true ∧ (signed 0 0 0xFB 0 0 0 0)[6].getLsbD 2 = false ∧
    HasSignature (signed 0 0 0xFB 0 0 0 0) := by decide

theorem witness_AssembleBuildsTheDescriptor :
    operandsP1.prg = some 2#66 ∧ operandsP1.chr = some 1#66 ∧
    operandsP1.mapper = some 0x001#12 ∧ operandsP1.verticalMirroring = some true ∧
    operandsP1.fourScreen = some false ∧ operandsP1.trainer = some none := by decide

theorem witness_AssembleWithoutAnOperandDoesNothing :
    ({ operandsP1 with prg := none } : Signals).prg = none ∧
    ({ operandsP1 with chr := none } : Signals).chr = none ∧
    ({ operandsP1 with mapper := none } : Signals).mapper = none ∧
    ({ operandsP1 with verticalMirroring := none } : Signals).verticalMirroring = none ∧
    ({ operandsP1 with fourScreen := none } : Signals).fourScreen = none ∧
    ({ operandsP1 with trainer := none } : Signals).trainer = none := by decide

theorem witness_EvaluatingThePipelineIsDecode :
    ((block plain 16#10 .run).setInputs (pipeline.map .evaluate)).sig = Signals.idle ∧
    ((block plain 16#10 .run).setInputs (pipeline.map .evaluate)).inputs =
      pipeline.map Stimulus.evaluate ++ [] := by decide

/-- Inputs of 16 bytes without the trainer flag and of 528 with it. -/
theorem witness_EverythingElseDecodes :
    HasSignature (headerOf (listByte plain.toList)) ∧
    ((listByte plain.toList) 6).getLsbD 2 = false ∧ 16 ≤ 16 ∧
    HasSignature (headerOf (listByte (signed 0 0 0x04 0 0 0 0).toList)) ∧
    ((listByte (signed 0 0 0x04 0 0 0 0).toList) 6).getLsbD 2 = true ∧ 528 ≤ 528 := by decide

/-- Two inputs of 16 bytes that differ in byte 6 bit 1, byte 7 bits 1:0 and byte 15, and, being
`Legacy`, in bytes 8 and 9. -/
theorem witness_DecodeDependsOnTheseBitsAlone :
    let B := listByte plain.toList
    let C := listByte ((signed 0 0 0x02 0x03 0xFF 0xFF 0).set 15 0xFF#8).toList
    (16 < 16 ↔ 16 < 16) ∧ (16 < 528 ↔ 16 < 528) ∧
    (∀ k, k < 4 → B k = C k) ∧ HasSignature (headerOf B) ∧ B 4 = C 4 ∧ B 5 = C 5 ∧
    (∀ k, k < 8 → k ≠ 1 → (B 6).getLsbD k = (C 6).getLsbD k) ∧
    (B 7).extractLsb' 2 6 = (C 7).extractLsb' 2 6 ∧ ¬ MarkedExtended (headerOf B) := by decide

/-- Two `Extended` headers that differ in byte 8 bits 7:4 and byte 12. -/
theorem witness_DecodeDependsOnTheseBitsAlone_extended :
    HasSignature extended ∧ MarkedExtended extended ∧
    extended[8].extractLsb' 0 4 = (signed 0 0 0 0x08 0xF0 0 0x03)[8].extractLsb' 0 4 ∧
    extended[9] = (signed 0 0 0 0x08 0xF0 0 0x03)[9] := by decide

/-- A state that meets the invariant, `CNT` at its highest, and a step from it. -/
theorem witness_EveryStepKeepsTheInvariant :
    let s := { block plain 528#10 .run with
      trn := [(0, 0x01#8), (511, 0xCD#8)], inputs := [.edge (pins 0b10#2 0#8)] }
    s.Inv ∧ step s = .next { s with phase := .done, inputs := [] } := by
  refine ⟨⟨by decide, by decide, ?_⟩, rfl⟩
  constructor <;> simp [block, State.reset, Signals.idle]

end Sys2Proof.Tests
end

section
/-! PROOF. Which instructions write the elements of the state (R24 to R27). -/

namespace Sys2Proof.Machine

/-- What `exec` can answer: an operation of layer 1 drives signals, a command acts as
`afterCommand` says. -/
theorem exec_next_cases {i : Instr} {s t : State} (h : exec i s = .next t) :
    (i.isLayer1 ∧ ∃ f, t = s.drive f) ∨ (IsCommand i ∧ t = afterCommand s i) := by
  obtain hl | hc := layerOne_or_command i
  · obtain ⟨f, hf⟩ := exec_layerOne hl s
    have hst : s.drive f = t := Host.Outcome.next.inj (hf.symm.trans h)
    exact .inl ⟨hl, f, hst.symm⟩
  · have hst : afterCommand s i = t := Host.Outcome.next.inj ((exec_command hc s).symm.trans h)
    exact .inr ⟨hc, hst.symm⟩

theorem afterCommand_phase_ne {i : Instr} {s : State} (hc : IsCommand i)
    (hne : (afterCommand s i).phase ≠ s.phase) :
    (i = .endInput ∧ s.phase = .run ∧ (afterCommand s i).phase = .done) ∨
      ((i = .clr ∨ i = .reset) ∧ (afterCommand s i).phase = .run) := by
  obtain rfl | ⟨din, rfl⟩ | rfl | rfl | rfl := hc
  · exact absurd rfl hne
  · exact absurd (afterPush_phase s din) hne
  · have hrun : s.phase = .run := by
      cases hp : s.phase with
      | run => rfl
      | done => exact absurd hp.symm hne
    exact .inl ⟨rfl, hrun, rfl⟩
  · exact .inr ⟨.inl rfl, rfl⟩
  · exact .inr ⟨.inr rfl, rfl⟩

/-- Settles O19: layer 1 leaves `PHASE` alone, and of the commands only END in `RUN`, CLR and RESET
change it. -/
theorem onlyEndClrAndResetMovePhase : Obligations.OnlyEndClrAndResetMovePhase := by
  intro i s t hexec hne
  obtain ⟨-, f, rfl⟩ | ⟨hc, rfl⟩ := exec_next_cases hexec
  · exact absurd (drive_sameBlock s f).phase hne
  · exact afterCommand_phase_ne hc hne

end Sys2Proof.Machine
end

section
/-! PROOF. The word on the pins and what it decodes to (R51). -/

namespace Sys2Proof.Machine

theorem decodeCmd_nop (din : Byte) : decodeCmd (0b00#2 ++ din) = .nop := by
  simp only [decodeCmd, cmd_code]

theorem decodeCmd_push (din : Byte) : decodeCmd (0b01#2 ++ din) = .push din := by
  simp only [decodeCmd, cmd_code, cmd_din]

theorem decodeCmd_endInput (din : Byte) : decodeCmd (0b10#2 ++ din) = .endInput := by
  simp only [decodeCmd, cmd_code]

theorem decodeCmd_clr (din : Byte) : decodeCmd (0b11#2 ++ din) = .clr := by
  simp only [decodeCmd, cmd_code]

theorem decode_pinsWord_of_rst_high {p : Pins} (h : p.rst = 1#1) :
    decode (pinsWord p) = .ok .reset := by
  simp [pinsWord, decode, h]

theorem pinsWord_of_rst_low {p : Pins} (h : p.rst = 0#1) : pinsWord p = .cmd (p.cmd ++ p.din) := by
  simp [pinsWord, h]

theorem decode_pinsWord_of_rst_low {p : Pins} {c : BitVec 2} (h : p.rst = 0#1) (hc : p.cmd = c) :
    decode (pinsWord p) = .ok (decodeCmd (c ++ p.din)) := by
  rw [pinsWord_of_rst_low h, hc, decode]

/-- Settles O5: reset is read off `rst` alone; otherwise the word is `cmd ++ din`, whose code names
the command. -/
theorem pinsCarryTheCommandTheirCodeNames : Obligations.PinsCarryTheCommandTheirCodeNames := by
  intro p
  refine ⟨decode_pinsWord_of_rst_high, fun h => ⟨_, pinsWord_of_rst_low h, cmd_toNat _ _⟩,
    fun h hc => ?nop, fun h hc => ?push, fun h hc => ?endInput, fun h hc => ?clr⟩
  case nop => rw [decode_pinsWord_of_rst_low h hc, decodeCmd_nop]
  case push => rw [decode_pinsWord_of_rst_low h hc, decodeCmd_push]
  case endInput => rw [decode_pinsWord_of_rst_low h hc, decodeCmd_endInput]
  case clr => rw [decode_pinsWord_of_rst_low h hc, decodeCmd_clr]

end Sys2Proof.Machine
end

section
/-! PROOF. LENCHK and the length of the input (R63). -/

namespace Sys2Proof.Machine

theorem exec_lenchk_of_short {s : State} (h : s.inputLen < 16) :
    exec .lenchk s = .next (s.raise .tooShort) := by
  have hfail : lenchk s.inputLen = some .tooShort := by rw [lenchk_eq, if_pos h]
  simp only [exec, execLenchk, hfail]

theorem exec_lenchk_of_long {s : State} (h : 16 ≤ s.inputLen) :
    exec .lenchk s = .next (s.drive fun g => { g with lenPassed := true }) := by
  have hpass : lenchk s.inputLen = none := by rw [lenchk_eq, if_neg (Nat.not_lt.mpr h)]
  simp only [exec, execLenchk, hpass]

/-- Settles O30: the row of LENCHK needs no header bit, and the length test alone decides between
`TooShort` and pass. -/
theorem lenchkTestsTheInputLength : Obligations.LenchkTestsTheInputLength :=
  ⟨fun _ => rfl, fun _ => ⟨exec_lenchk_of_short, exec_lenchk_of_long⟩⟩

end Sys2Proof.Machine
end

section
/-! PROOF. The format detector and the bit-field extractor (R66 to R73). -/

namespace Sys2Proof.Machine

/-! ### What a validated header selects -/

theorem isExtended_iff_markedExtended (h : Header) : isExtended h = true ↔ MarkedExtended h :=
  beq_iff_eq

theorem onValid_of_hasSignature {h : Header} (hs : HasSignature h) (i : Instr) :
    onValid h i = some i :=
  if_pos ((signatureOk_iff h).2 hs)

/-- A row that only wants the signature is what a validated header decodes to. -/
theorem decode_hdr_of_onValid {g : HdrGroup} {h : Header} {i : Instr} (hs : HasSignature h)
    (hrow : selectRow g h = onValid h i) : decode (.hdr g h) = .ok i := by
  rw [decode, hrow, onValid_of_hasSignature hs]

theorem decode_dialect_of_marked {h : Header} (hs : HasSignature h) (hm : MarkedExtended h) :
    decode (.hdr .dialect h) = .ok .dialectE := by
  have hext : isExtended h = true := (isExtended_iff_markedExtended h).2 hm
  exact decode_hdr_of_onValid hs (by rw [selectRow, if_pos hext])

theorem decode_dialect_of_not_marked {h : Header} (hs : HasSignature h)
    (hm : ¬ MarkedExtended h) :
    decode (.hdr .dialect h) = .ok (.dialectL (h[7].extractLsb' 2 2)) := by
  have hext : ¬ isExtended h = true := mt (isExtended_iff_markedExtended h).1 hm
  exact decode_hdr_of_onValid hs (by rw [selectRow, if_neg hext, Field.dialectMark])

/-! ### What the rows do -/

theorem exec_dialectE (s : State) :
    exec .dialectE s = .next (s.drive fun g => { g with dialect := some .extended }) := rfl

theorem exec_dialectL (mark : BitVec 2) (s : State) :
    exec (.dialectL mark) s = .next (s.drive fun g => { g with dialect := some .legacy }) := rfl

theorem bitSet_eq_decide (bit : BitVec 1) : bitSet bit = decide (bit = 1#1) := rfl

theorem exec_vmirror (bit : BitVec 1) (s : State) : exec (.vmirror bit) s =
    .next (s.drive fun g => { g with verticalMirroring := some (decide (bit = 1#1)) }) := by
  simp only [exec, execVmirror, bitSet_eq_decide]

theorem exec_battery (bit : BitVec 1) (s : State) : exec (.battery bit) s =
    .next (s.drive fun g => { g with battery := some (decide (bit = 1#1)) }) := by
  simp only [exec, execBattery, bitSet_eq_decide]

theorem exec_trainerf (bit : BitVec 1) (s : State) : exec (.trainerf bit) s =
    .next (s.drive fun g => { g with trainerFlag := some (decide (bit = 1#1)) }) := by
  simp only [exec, execTrainerf, bitSet_eq_decide]

theorem exec_fourscr (bit : BitVec 1) (s : State) : exec (.fourscr bit) s =
    .next (s.drive fun g => { g with fourScreen := some (decide (bit = 1#1)) }) := by
  simp only [exec, execFourscr, bitSet_eq_decide]

/-! ### The statements -/

/-- Settles O32: with the signature present the marker alone decides between the two rows, and each
row drives the dialect and no other signal. -/
theorem dialectRowsGiveTheDialect : Obligations.DialectRowsGiveTheDialect :=
  ⟨fun _ hs => ⟨decode_dialect_of_marked hs, decode_dialect_of_not_marked hs⟩,
    exec_dialectE, fun s mark => exec_dialectL mark s⟩

/-- Settles O33: with the signature present each of the four groups has one row, whose operand is
its own bit of byte 6; the row drives its flag with that bit and no other signal. -/
theorem flagRowsReadByteSix : Obligations.FlagRowsReadByteSix := by
  refine ⟨fun h hs => ⟨?_, ?_, ?_, ?_⟩, fun s bit =>
    ⟨exec_vmirror bit s, exec_battery bit s, exec_trainerf bit s, exec_fourscr bit s⟩⟩
  · exact decode_hdr_of_onValid hs (by rw [selectRow, Field.vmirror])
  · exact decode_hdr_of_onValid hs (by rw [selectRow, Field.battery])
  · exact decode_hdr_of_onValid hs (by rw [selectRow, Field.trainerFlag])
  · exact decode_hdr_of_onValid hs (by rw [selectRow, Field.fourScreen])

end Sys2Proof.Machine
end

section
/-! PROOF. The mapper-number assembler (R76 to R78). -/

namespace Sys2Proof.Machine

/-! ### The nibbles of a byte and the parts of the mapper number -/

theorem hi_nibble_toNat (b : Byte) : (b.extractLsb' 4 4).toNat = b.toNat / 16 := by
  rw [BitVec.extractLsb'_toNat, Nat.shiftRight_eq_div_pow]
  have := b.isLt
  omega

theorem lo_nibble_toNat (b : Byte) : (b.extractLsb' 0 4).toNat = b.toNat % 16 := by
  rw [BitVec.extractLsb'_toNat, Nat.shiftRight_zero]

/-- The part of byte 6 in R76: its high nibble, shifted down to bits 3:0. -/
theorem hi_nibble_shifted_down (b : Byte) :
    ((b &&& 0xF0#8) >>> 4).setWidth 12 = (0#8 ++ b.extractLsb' 4 4 : BitVec 12) := by
  revert b; decide

/-- The part of byte 7 in R76: its high nibble, left in place at bits 7:4. -/
theorem hi_nibble_in_place (b : Byte) :
    (b &&& 0xF0#8).setWidth 12 = (0#4 ++ b.extractLsb' 4 4 ++ 0#4 : BitVec 12) := by
  revert b; decide

/-- The part of byte 8 in R76: its low nibble, shifted up to bits 11:8. -/
theorem lo_nibble_shifted_up (b : Byte) :
    (b &&& 0x0F#8).setWidth 12 <<< 8 = (b.extractLsb' 0 4 ++ 0#8 : BitVec 12) := by
  revert b; decide

/-- Parts at disjoint bits: their OR is their concatenation (R76). -/
theorem or_of_disjoint_nibbles (hi mid lo : BitVec 4) :
    ((hi ++ 0#8) ||| (0#4 ++ mid ++ 0#4) ||| (0#8 ++ lo) : BitVec 12) = hi ++ mid ++ lo := by
  have htop : (hi ++ 0#8 : BitVec 12) = hi ++ 0#4 ++ 0#4 := by
    revert hi; decide
  have hbot : (0#8 ++ lo : BitVec 12) = 0#4 ++ 0#4 ++ lo := rfl
  rw [htop, hbot]
  simp only [BitVec.or_append, BitVec.or_zero, BitVec.zero_or]

/-! ### The two rows and the function of R76 -/

theorem mapperE_toNat (lo mid hi : BitVec 4) :
    (mapperE lo mid hi).toNat = hi.toNat * 256 + mid.toNat * 16 + lo.toNat :=
  three_nibbles_toNat hi mid lo

/-- MAPPER.L is MAPPER.E with 0 at bits 11:8 (R77). -/
theorem mapperL_eq_mapperE (lo mid : BitVec 4) : mapperL lo mid = mapperE lo mid 0#4 := by
  revert lo mid; decide

theorem mapperL_toNat (lo mid : BitVec 4) :
    (mapperL lo mid).toNat = mid.toNat * 16 + lo.toNat := by
  rw [mapperL_eq_mapperE, mapperE_toNat, BitVec.toNat_zero, Nat.zero_mul, Nat.zero_add]

theorem dialect_eq_extended_iff (h : Header) : dialect h = .extended ↔ MarkedExtended h :=
  (isExtended_iff h).symm.trans (isExtended_iff_markedExtended h)

theorem mapper_of_marked {h : Header} (hm : MarkedExtended h) :
    mapper h =
      mapperE (h[6].extractLsb' 4 4) (h[7].extractLsb' 4 4) (h[8].extractLsb' 0 4) := by
  have hext : dialect h = .extended := (dialect_eq_extended_iff h).2 hm
  rw [mapper, if_pos hext, hi_nibble_shifted_down, hi_nibble_in_place, lo_nibble_shifted_up,
    or_of_disjoint_nibbles, mapperE]

theorem mapper_of_not_marked {h : Header} (hm : ¬ MarkedExtended h) :
    mapper h = mapperL (h[6].extractLsb' 4 4) (h[7].extractLsb' 4 4) := by
  have hext : ¬ dialect h = .extended := mt (dialect_eq_extended_iff h).1 hm
  have hzero : 0#Config.mapperW = (0#4 ++ 0#8 : BitVec 12) := rfl
  rw [mapper, if_neg hext, hi_nibble_shifted_down, hi_nibble_in_place, hzero,
    or_of_disjoint_nibbles, mapperL_eq_mapperE, mapperE]

/-! ### What a validated header selects, and what the rows do -/

theorem decode_mapper_of_marked {h : Header} (hs : HasSignature h) (hm : MarkedExtended h) :
    decode (.hdr .mapper h) =
      .ok (.mapperE (h[6].extractLsb' 4 4) (h[7].extractLsb' 4 4) (h[8].extractLsb' 0 4)) := by
  have hext : isExtended h = true := (isExtended_iff_markedExtended h).2 hm
  exact decode_hdr_of_onValid hs
    (by rw [selectRow, if_pos hext, Field.mapLo, Field.mapMid, Field.mapHi])

theorem decode_mapper_of_not_marked {h : Header} (hs : HasSignature h)
    (hm : ¬ MarkedExtended h) :
    decode (.hdr .mapper h) = .ok (.mapperL (h[6].extractLsb' 4 4) (h[7].extractLsb' 4 4)) := by
  have hext : ¬ isExtended h = true := mt (isExtended_iff_markedExtended h).1 hm
  exact decode_hdr_of_onValid hs (by rw [selectRow, if_neg hext, Field.mapLo, Field.mapMid])

theorem exec_mapperE (lo mid hi : BitVec 4) (s : State) : exec (.mapperE lo mid hi) s =
    .next (s.drive fun g => { g with mapper := some (mapperE lo mid hi) }) := rfl

theorem exec_mapperL (lo mid : BitVec 4) (s : State) : exec (.mapperL lo mid) s =
    .next (s.drive fun g => { g with mapper := some (mapperL lo mid) }) := rfl

/-! ### The statements -/

/-- Settles O35: the marker decides between the two rows, whose operands are the nibbles; MAPPER.E
concatenates them, and MAPPER.L does so with 0 on top. -/
theorem mapperRowsAssembleTheNibbles : Obligations.MapperRowsAssembleTheNibbles :=
  ⟨fun _ hs => ⟨decode_mapper_of_marked hs, decode_mapper_of_not_marked hs⟩,
    fun s lo mid hi => ⟨mapperE lo mid hi, exec_mapperE lo mid hi s, mapperE_toNat lo mid hi⟩,
    fun s lo mid => ⟨mapperL lo mid, exec_mapperL lo mid s, mapperL_toNat lo mid⟩⟩

/-- Settles O36: in either dialect the masked and shifted parts lie at disjoint bits, so `mapper(h)`
is the concatenation that the selected row drives, and its value the sum of the parts. -/
theorem mapperFunctionIsTheSelectedRow : Obligations.MapperFunctionIsTheSelectedRow := by
  intro h s hs
  by_cases hm : MarkedExtended h
  · rw [mapper_of_marked hm, if_pos hm]
    refine ⟨_, decode_mapper_of_marked hs hm, exec_mapperE _ _ _ s, ?_⟩
    rw [mapperE_toNat, lo_nibble_toNat, hi_nibble_toNat, hi_nibble_toNat]
  · rw [mapper_of_not_marked hm, if_neg hm]
    refine ⟨_, decode_mapper_of_not_marked hs hm, exec_mapperL _ _ s, ?_⟩
    rw [mapperL_toNat, hi_nibble_toNat, hi_nibble_toNat, Nat.zero_add]

end Sys2Proof.Machine
end

section
/-! PROOF. The ROM-size decoder and the exponent-multiplier unpacker (R80 to R92). -/

namespace Sys2Proof.Machine

/-! ### UNPACK -/

/-- The mask of R81 for the multiplier leaves bits 1:0. -/
theorem multiplier_field (raw : RawSize) :
    (raw &&& 0b11#12).toNat = (raw.extractLsb' 0 2).toNat := by
  rw [BitVec.extractLsb'_toNat, BitVec.toNat_and]
  exact Nat.and_two_pow_sub_one_eq_mod raw.toNat 2

/-- The mask and shift of R81 for the exponent leave bits 7:2. -/
theorem exponent_field (raw : RawSize) :
    ((raw &&& 0x0FF#12) >>> 2).toNat = (raw.extractLsb' 2 6).toNat := by
  have hmask : raw.toNat &&& 255 = raw.toNat % 256 := Nat.and_two_pow_sub_one_eq_mod raw.toNat 8
  have hand : (raw &&& 0x0FF#12).toNat = raw.toNat % 256 := (BitVec.toNat_and ..).trans hmask
  rw [BitVec.extractLsb'_toNat, BitVec.toNat_ushiftRight, hand, Nat.shiftRight_eq_div_pow,
    Nat.shiftRight_eq_div_pow]
  omega

theorem unpack_eq (raw : RawSize) : unpack raw =
    2 ^ (raw.extractLsb' 2 6).toNat * (2 * (raw.extractLsb' 0 2).toNat + 1) := by
  rw [unpack, multiplier_field, exponent_field, Nat.mul_comm 2]

theorem unpack_pos (raw : RawSize) : 1 ≤ unpack raw := by
  rw [unpack_eq]
  exact Nat.mul_pos (Nat.two_pow_pos _) (Nat.succ_pos _)

/-- R82: the exponent is at most 63 and the odd factor at most 7, so 66 bits hold the product. -/
theorem unpack_lt (raw : RawSize) : unpack raw < 2 ^ 66 := by
  have hexp : 2 ^ (raw.extractLsb' 2 6).toNat ≤ 2 ^ 63 :=
    Nat.pow_le_pow_right (by decide) (Nat.le_of_lt_succ (raw.extractLsb' 2 6).isLt)
  have hodd : 2 * (raw.extractLsb' 0 2).toNat + 1 ≤ 7 := by
    have := (raw.extractLsb' 0 2).isLt
    omega
  calc unpack raw
      = 2 ^ (raw.extractLsb' 2 6).toNat * (2 * (raw.extractLsb' 0 2).toNat + 1) := unpack_eq raw
    _ ≤ 2 ^ 63 * 7 := Nat.mul_le_mul hexp hodd
    _ < 2 ^ 66 := by decide

theorem unpackUnits_toNat (raw : RawSize) : (unpackUnits raw).toNat = unpack raw := by
  rw [unpackUnits, BitVec.toNat_ofNat, Nat.mod_eq_of_lt (unpack_lt raw)]

/-! ### The counts as numbers -/

theorem plainByte_toNat (lo : Byte) : (plainByte lo).toNat = lo.toNat :=
  BitVec.toNat_setWidth_of_le (by decide)

theorem plainMerged_toNat (hi : BitVec 4) (lo : Byte) :
    (plainMerged hi lo).toNat = hi.toNat * 256 + lo.toNat := by
  rw [plainMerged, BitVec.toNat_setWidth_of_le (by decide), nibble_byte_toNat]

/-- The exponent and the multiplier lie in the low byte; the selector nibble is in neither (R81). -/
theorem expForm_toNat (lo : Byte) :
    (expForm lo).toNat = 2 ^ (lo.toNat / 4) * (2 * (lo.toNat % 4) + 1) := by
  have hraw : BitVec.toNat (Config.expSelect ++ lo : BitVec 12) = 15 * 256 + lo.toNat :=
    nibble_byte_toNat Config.expSelect lo
  have hlo : lo.toNat < 256 := lo.isLt
  have hexp : ((Config.expSelect ++ lo : BitVec 12).extractLsb' 2 6).toNat = lo.toNat / 4 := by
    rw [BitVec.extractLsb'_toNat, hraw, Nat.shiftRight_eq_div_pow]
    omega
  have hmul : ((Config.expSelect ++ lo : BitVec 12).extractLsb' 0 2).toNat = lo.toNat % 4 := by
    rw [BitVec.extractLsb'_toNat, hraw, Nat.shiftRight_zero]
    omega
  rw [expForm, unpackUnits_toNat, unpack_eq, hexp, hmul]

/-- A merged size reinterpreted, in numbers (R80). -/
theorem reinterpret_merged_toNat (hi : BitVec 4) (lo : Byte) :
    (reinterpret (hi ++ lo : BitVec 12)).toNat =
      if hi.toNat = 15 then 2 ^ (lo.toNat / 4) * (2 * (lo.toNat % 4) + 1)
      else hi.toNat * 256 + lo.toNat := by
  have hsel : hi = 0xF#4 ↔ hi.toNat = 15 := BitVec.toNat_inj.symm
  rw [reinterpret_merged, apply_ite BitVec.toNat, expForm_toNat, plainMerged_toNat]
  simp only [hsel]

/-! ### The functions of R85 and R89, by dialect -/

theorem prgUnits_of_marked {h : Header} (hm : MarkedExtended h) :
    prgUnits h = reinterpret (h[9].extractLsb' 0 4 ++ h[4] : BitVec 12) := by
  rw [prgUnits, prgRaw_extended ((isExtended_iff_markedExtended h).2 hm)]

theorem prgUnits_of_not_marked {h : Header} (hm : ¬ MarkedExtended h) :
    prgUnits h = plainByte h[4] := by
  rw [prgUnits, prgRaw, if_neg (mt (dialect_eq_extended_iff h).1 hm), reinterpret_plain]

theorem chrUnits_of_marked {h : Header} (hm : MarkedExtended h) :
    chrUnits h = reinterpret (h[9].extractLsb' 4 4 ++ h[5] : BitVec 12) := by
  rw [chrUnits, chrRaw_extended ((isExtended_iff_markedExtended h).2 hm)]

theorem chrUnits_of_not_marked {h : Header} (hm : ¬ MarkedExtended h) :
    chrUnits h = plainByte h[5] := by
  rw [chrUnits, chrRaw, if_neg (mt (dialect_eq_extended_iff h).1 hm), reinterpret_plain]

/-! ### What a validated header selects -/

section
variable {h : Header}

theorem decode_prgsize_of_not_marked (hs : HasSignature h) (hm : ¬ MarkedExtended h) :
    decode (.hdr .prgsize h) = .ok (.prgsizeL h[4]) := by
  have hext : ¬ isExtended h = true := mt (isExtended_iff_markedExtended h).1 hm
  exact decode_hdr_of_onValid hs (by rw [selectRow, if_neg hext, Field.prgLo])

theorem decode_prgsize_of_expSelect (hs : HasSignature h) (hm : MarkedExtended h)
    (hx : h[9].extractLsb' 0 4 = 0xF#4) :
    decode (.hdr .prgsize h) = .ok (.prgsizeEX h[4]) := by
  have hext : isExtended h = true := (isExtended_iff_markedExtended h).2 hm
  have hsel : Field.prgHi h = Config.expSelect := hx
  exact decode_hdr_of_onValid hs (by rw [selectRow, if_pos hext, if_pos hsel, Field.prgLo])

theorem decode_prgsize_of_not_expSelect (hs : HasSignature h) (hm : MarkedExtended h)
    (hx : h[9].extractLsb' 0 4 ≠ 0xF#4) :
    decode (.hdr .prgsize h) = .ok (.prgsizeEP h[4] (h[9].extractLsb' 0 4)) := by
  have hext : isExtended h = true := (isExtended_iff_markedExtended h).2 hm
  have hsel : ¬ Field.prgHi h = Config.expSelect := hx
  exact decode_hdr_of_onValid hs
    (by rw [selectRow, if_pos hext, if_neg hsel, Field.prgLo, Field.prgHi])

theorem decode_chrsize_of_not_marked (hs : HasSignature h) (hm : ¬ MarkedExtended h) :
    decode (.hdr .chrsize h) = .ok (.chrsizeL h[5]) := by
  have hext : ¬ isExtended h = true := mt (isExtended_iff_markedExtended h).1 hm
  exact decode_hdr_of_onValid hs (by rw [selectRow, if_neg hext, Field.chrLo])

theorem decode_chrsize_of_expSelect (hs : HasSignature h) (hm : MarkedExtended h)
    (hx : h[9].extractLsb' 4 4 = 0xF#4) :
    decode (.hdr .chrsize h) = .ok (.chrsizeEX h[5]) := by
  have hext : isExtended h = true := (isExtended_iff_markedExtended h).2 hm
  have hsel : Field.chrHi h = Config.expSelect := hx
  exact decode_hdr_of_onValid hs (by rw [selectRow, if_pos hext, if_pos hsel, Field.chrLo])

theorem decode_chrsize_of_not_expSelect (hs : HasSignature h) (hm : MarkedExtended h)
    (hx : h[9].extractLsb' 4 4 ≠ 0xF#4) :
    decode (.hdr .chrsize h) = .ok (.chrsizeEP h[5] (h[9].extractLsb' 4 4)) := by
  have hext : isExtended h = true := (isExtended_iff_markedExtended h).2 hm
  have hsel : ¬ Field.chrHi h = Config.expSelect := hx
  exact decode_hdr_of_onValid hs
    (by rw [selectRow, if_pos hext, if_neg hsel, Field.chrLo, Field.chrHi])

end

/-! ### What the rows do -/

theorem exec_prgsizeL (lo : Byte) (s : State) : exec (.prgsizeL lo) s =
    .next (s.drive fun g => { g with prg := some (plainByte lo) }) := rfl

theorem exec_prgsizeEP (lo : Byte) (hi : BitVec 4) (s : State) : exec (.prgsizeEP lo hi) s =
    .next (s.drive fun g => { g with prg := some (plainMerged hi lo) }) := rfl

theorem exec_prgsizeEX (lo : Byte) (s : State) : exec (.prgsizeEX lo) s =
    .next (s.drive fun g => { g with prg := some (expForm lo), prgExp := some true }) := rfl

theorem exec_chrsizeL (lo : Byte) (s : State) : exec (.chrsizeL lo) s =
    .next (s.drive fun g => { g with chr := some (plainByte lo) }) := rfl

theorem exec_chrsizeEP (lo : Byte) (hi : BitVec 4) (s : State) : exec (.chrsizeEP lo hi) s =
    .next (s.drive fun g => { g with chr := some (plainMerged hi lo) }) := rfl

theorem exec_chrsizeEX (lo : Byte) (s : State) : exec (.chrsizeEX lo) s =
    .next (s.drive fun g => { g with chr := some (expForm lo), chrExp := some true }) := rfl

/-- The three branches of `prg_units(h)` are the three rows of PRGSIZE (R85). -/
theorem prgsize_row_drives_prgUnits {h : Header} (hs : HasSignature h) (s : State) :
    ∃ i t, decode (.hdr .prgsize h) = .ok i ∧ exec i s = .next t ∧
      t.sig.prg = some (prgUnits h) := by
  by_cases hm : MarkedExtended h
  · rw [prgUnits_of_marked hm, reinterpret_merged]
    by_cases hx : h[9].extractLsb' 0 4 = 0xF#4
    · rw [if_pos hx]
      exact ⟨_, _, decode_prgsize_of_expSelect hs hm hx, exec_prgsizeEX _ s, rfl⟩
    · rw [if_neg hx]
      exact ⟨_, _, decode_prgsize_of_not_expSelect hs hm hx, exec_prgsizeEP _ _ s, rfl⟩
  · rw [prgUnits_of_not_marked hm]
    exact ⟨_, _, decode_prgsize_of_not_marked hs hm, exec_prgsizeL _ s, rfl⟩

/-- The three branches of `chr_units(h)` are the three rows of CHRSIZE (R89). -/
theorem chrsize_row_drives_chrUnits {h : Header} (hs : HasSignature h) (s : State) :
    ∃ i t, decode (.hdr .chrsize h) = .ok i ∧ exec i s = .next t ∧
      t.sig.chr = some (chrUnits h) := by
  by_cases hm : MarkedExtended h
  · rw [chrUnits_of_marked hm, reinterpret_merged]
    by_cases hx : h[9].extractLsb' 4 4 = 0xF#4
    · rw [if_pos hx]
      exact ⟨_, _, decode_chrsize_of_expSelect hs hm hx, exec_chrsizeEX _ s, rfl⟩
    · rw [if_neg hx]
      exact ⟨_, _, decode_chrsize_of_not_expSelect hs hm hx, exec_chrsizeEP _ _ s, rfl⟩
  · rw [chrUnits_of_not_marked hm]
    exact ⟨_, _, decode_chrsize_of_not_marked hs hm, exec_chrsizeL _ s, rfl⟩

/-! ### The statements -/

/-- Settles O37: the two masked fields are bits 7:2 and 1:0, so the product is odd times a power of
two, positive, and at most `7 * 2^63`. -/
theorem unpackIsExact : Obligations.UnpackIsExact :=
  fun raw => ⟨unpack_eq raw, unpack_pos raw, unpack_lt raw, unpackUnits_toNat raw⟩

/-- Settles O39: the marker and then the low nibble of byte 9 decide between the three rows; each
drives its count, and PRGSIZE.EX the flag too. -/
theorem prgSizeRowsGiveTheirCounts : Obligations.PrgSizeRowsGiveTheirCounts :=
  ⟨fun _ hs => ⟨decode_prgsize_of_not_marked hs, decode_prgsize_of_expSelect hs,
      decode_prgsize_of_not_expSelect hs⟩,
    fun s lo => ⟨plainByte lo, exec_prgsizeL lo s, plainByte_toNat lo⟩,
    fun s lo hi => ⟨plainMerged hi lo, exec_prgsizeEP lo hi s, plainMerged_toNat hi lo⟩,
    fun s lo => ⟨expForm lo, exec_prgsizeEX lo s, expForm_toNat lo⟩⟩

/-- Settles O40: the marker and then the high nibble of byte 9 decide between the three rows; each
drives its count, and CHRSIZE.EX the flag too. -/
theorem chrSizeRowsGiveTheirCounts : Obligations.ChrSizeRowsGiveTheirCounts :=
  ⟨fun _ hs => ⟨decode_chrsize_of_not_marked hs, decode_chrsize_of_expSelect hs,
      decode_chrsize_of_not_expSelect hs⟩,
    fun s lo => ⟨plainByte lo, exec_chrsizeL lo s, plainByte_toNat lo⟩,
    fun s lo hi => ⟨plainMerged hi lo, exec_chrsizeEP lo hi s, plainMerged_toNat hi lo⟩,
    fun s lo => ⟨expForm lo, exec_chrsizeEX lo s, expForm_toNat lo⟩⟩

/-- Settles O41: in either dialect `prg_units(h)` is the count of the selected row, and its number
that of byte 4 alone or merged with the low nibble of byte 9. -/
theorem prgUnitsIsTheSelectedRow : Obligations.PrgUnitsIsTheSelectedRow := by
  intro h s hs
  refine ⟨prgsize_row_drives_prgUnits hs s, ?_⟩
  by_cases hm : MarkedExtended h
  · rw [if_pos hm, prgUnits_of_marked hm, reinterpret_merged_toNat, lo_nibble_toNat]
  · rw [if_neg hm, prgUnits_of_not_marked hm, plainByte_toNat]

/-- Settles O42: in either dialect `chr_units(h)` is the count of the selected row, and its number
that of byte 5 alone or merged with the high nibble of byte 9. -/
theorem chrUnitsIsTheSelectedRow : Obligations.ChrUnitsIsTheSelectedRow := by
  intro h s hs
  refine ⟨chrsize_row_drives_chrUnits hs s, ?_⟩
  by_cases hm : MarkedExtended h
  · rw [if_pos hm, chrUnits_of_marked hm, reinterpret_merged_toNat, hi_nibble_toNat]
  · rw [if_neg hm, chrUnits_of_not_marked hm, plainByte_toNat]

end Sys2Proof.Machine
end

section
/-! PROOF. The trainer extractor and the descriptor assembly (R94 to R100). -/

namespace Sys2Proof.Machine

/-! ### What a validated header selects -/

section
variable {h : Header}

theorem decode_trainer_of_flag (hs : HasSignature h) (hf : trainerFlag h = true) :
    decode (.hdr .trainer h) = .ok .trainerCopy := by
  have hbit : Field.trainerFlag h = 1#1 := (trainerFlag_iff h).2 hf
  exact decode_hdr_of_onValid hs (by rw [selectRow, if_pos hbit])

theorem decode_trainer_of_no_flag (hs : HasSignature h) (hf : trainerFlag h = false) :
    decode (.hdr .trainer h) = .ok .trainerAbsent := by
  have hbit : ¬ Field.trainerFlag h = 1#1 :=
    mt (trainerFlag_iff h).1 (ne_true_of_eq_false hf)
  exact decode_hdr_of_onValid hs (by rw [selectRow, if_neg hbit])

theorem decode_assemble (hs : HasSignature h) : decode (.hdr .assemble h) = .ok .assemble :=
  decode_hdr_of_onValid hs (by rw [selectRow])

end

/-! ### What the rows do -/

theorem exec_trainerAbsent (s : State) :
    exec .trainerAbsent s = .next (s.drive fun g => { g with trainer := some none }) := rfl

theorem exec_trainerCopy_of_short {s : State} (h : s.cnt.toNat < 528) :
    exec .trainerCopy s = .next (s.raise (.invalidHeader 6)) := by
  have hfail : trainerCopy s.inputLen s.inputByte = .error (.invalidHeader 6) := by
    rw [trainerCopy_eq, State.inputLen, if_pos h]
  simp only [exec, execTrainerCopy, hfail, finishTrainer]

theorem exec_trainerCopy_of_long {s : State} (h : 528 ≤ s.cnt.toNat) :
    exec .trainerCopy s =
      .next (s.drive fun g => { g with trainer := some (some (trainerOf s.inputByte)) }) := by
  have hcopy : trainerCopy s.inputLen s.inputByte = .ok (some (trainerOf s.inputByte)) := by
    rw [trainerCopy_eq, State.inputLen, if_neg (Nat.not_lt.mpr h)]
  simp only [exec, execTrainerCopy, hcopy, finishTrainer]

/-- R96: the block that the port machine copies is the trainer buffer. -/
theorem trainerOf_inputByte_getElem (s : State) (a : Nat) (ha : a < 512) :
    (trainerOf s.inputByte)[a] = s.trnByte a := by
  rw [trainerOf_getElem, inputByte_trainer]

theorem exec_assemble_of_assembled {s : State} {d : Descriptor} (h : s.sig.assembled = some d) :
    exec .assemble s = .next (s.drive fun g => { g with result := some (.ok d) }) := by
  simp only [exec, execAssemble, h]

/-! ### Decode of an input without a trainer -/

/-- R98: past the length and the signature, without the trainer flag nothing can fail any more. -/
theorem decodeInput_of_no_trainer {n : Nat} {B : Nat → Byte} (hn : 16 ≤ n)
    (hs : HasSignature (headerOf B)) (hf : trainerFlag (headerOf B) = false) :
    decodeInput n B = .ok (assemble (prgUnits (headerOf B)) (chrUnits (headerOf B))
      (mapper (headerOf B)) (verticalMirroring (headerOf B)) (fourScreenVram (headerOf B))
      none) := by
  have hlen : lenchk n = none := by rw [lenchk_eq, if_neg (Nat.not_lt.mpr hn)]
  have hmagic := (magicCheck_eq_none_iff (headerOf B)).2 ((signatureOk_iff _).2 hs)
  have htrainer : trainerField n B = .ok none := by
    rw [trainerField_eq, if_neg (ne_true_of_eq_false hf)]
  simp only [decodeInput, hlen, hmagic, htrainer]

/-! ### The statements -/

/-- Settles O43: with the signature present the trainer flag alone decides between the two rows;
TRAINER.COPY fails or copies by the length test at 528, and what it copies is `TRN`. -/
theorem trainerRowsCopyOrFail : Obligations.TrainerRowsCopyOrFail :=
  ⟨fun _ hs => ⟨decode_trainer_of_flag hs, decode_trainer_of_no_flag hs⟩,
    fun s => ⟨exec_trainerAbsent s, exec_trainerCopy_of_short, fun h =>
      ⟨trainerOf s.inputByte, exec_trainerCopy_of_long h, trainerOf_inputByte_getElem s⟩⟩⟩

/-- Settles O44: the row wants the signature only, and with its six operands present the descriptor
is assembled from them without a test of their values. -/
theorem assembleBuildsTheDescriptor : Obligations.AssembleBuildsTheDescriptor := by
  refine ⟨fun _ hs => decode_assemble hs, fun s p c m v f t hp hc hm hv hf ht => ?_⟩
  have hd : s.sig.assembled = some (assemble p c m v f t) := by
    simp only [Signals.assembled, hp, hc, hm, hv, hf, ht]
  exact exec_assemble_of_assembled hd

/-- Settles O50: sixteen bytes with the signature and no trainer flag decode to the values of their
header, which are all zero. -/
theorem allZeroHeaderDecodes : Obligations.AllZeroHeaderDecodes := by
  rw [Obligations.AllZeroHeaderDecodes, decodeList,
    decodeInput_of_no_trainer (by decide) (by decide) (by decide)]
  decide

end Sys2Proof.Machine
end

section
/-! PROOF. The port commands (R105 to R109) and the output ports (R110). -/

namespace Sys2Proof.Machine

/-! ### The outputs in the two phases -/

theorem outputs_of_run {s : State} (h : s.phase = .run) (a : BitVec 9) :
    outputs s a = Outputs.only 0x00#8 := by
  simp only [outputs, h]

theorem outputs_of_done {s : State} (h : s.phase = .done) (a : BitVec 9) :
    outputs s a = Outputs.ofResult (decodeInput s.cnt.toNat s.inputByte) (s.trnByte a.toNat) := by
  simp only [outputs, h, State.decoded, State.inputLen]

/-! ### The commands -/

theorem decode_pins_of_decodeCmd {c : BitVec 2} {din : Byte} {i : Instr}
    (h : decodeCmd (c ++ din) = i) :
    decode (pinsWord { rst := 0#1, cmd := c, din := din }) = .ok i := by
  rw [decode_pinsWord_of_rst_low rfl rfl, h]

theorem exec_nop (s : State) : exec .nop s = .next s := rfl

theorem exec_push (din : Byte) (s : State) : exec (.push din) s = .next (afterPush din s) :=
  exec_command (.inr (.inl ⟨din, rfl⟩)) s

theorem exec_endInput (s : State) : exec .endInput s = .next (s.setPhase .done) :=
  exec_command (.inr (.inr (.inl rfl))) s

theorem exec_clr (s : State) : exec .clr s = .next s.restart := rfl

theorem exec_reset (s : State) : exec .reset s = .next s.restart.loseContents := rfl

theorem restart_sameOwn (s : State) : s.restart.SameOwn s := ⟨rfl, rfl, rfl⟩

/-! ### PUSH, case by case (R106) -/

theorem afterPush_of_done (din : Byte) {s : State} (h : s.phase = .done) :
    afterPush din s = s := by
  simp [afterPush, h]

theorem afterPush_of_full (din : Byte) {s : State} (h : 528 ≤ s.cnt.toNat) :
    afterPush din s = s := by
  rw [afterPush, storePushed_of_full s din h, countPushed_of_full s h, ite_self]

theorem afterPush_cnt_toNat (din : Byte) {s : State} (hp : s.phase = .run)
    (hc : s.cnt.toNat < 528) : (afterPush din s).cnt.toNat = s.cnt.toNat + 1 := by
  rw [afterPush_cnt, if_pos ⟨hp, hc⟩, cnt_succ _ hc]

theorem afterPush_hdr_getElem (din : Byte) {s : State} (hp : s.phase = .run) (k : Nat)
    (hk : k < 16) : (afterPush din s).hdr[k] = if k = s.cnt.toNat then din else s.hdr[k] := by
  simp only [afterPush_hdr, hp, true_and, eq_comm]

theorem afterPush_hdr_of_ge (din : Byte) {s : State} (h : 16 ≤ s.cnt.toNat) :
    (afterPush din s).hdr = s.hdr := by
  apply header_ext
  intro k hk
  have hother : ¬ (s.phase = .run ∧ s.cnt.toNat = k) := by omega
  rw [afterPush_hdr, if_neg hother]

theorem afterPush_trnByte_of_header (din : Byte) {s : State} (h : s.cnt.toNat < 16) (a : Nat) :
    (afterPush din s).trnByte a = s.trnByte a := by
  rw [afterPush_trnByte, if_neg]
  omega

theorem afterPush_trnByte_of_flag (din : Byte) {s : State} (hp : s.phase = .run)
    (h16 : 16 ≤ s.cnt.toNat) (h528 : s.cnt.toNat < 528) (hf : trainerFlag s.hdr = true) (a : Nat) :
    (afterPush din s).trnByte a = if a = s.cnt.toNat - 16 then din else s.trnByte a := by
  simp only [afterPush_trnByte, hp, h16, h528, hf, true_and]

theorem afterPush_trnByte_of_no_flag (din : Byte) {s : State} (hf : trainerFlag s.hdr = false)
    (a : Nat) : (afterPush din s).trnByte a = s.trnByte a := by
  simp [afterPush_trnByte, hf]

/-! ### What the ports show of a descriptor -/

theorem ofBool_eq_ite (b : Bool) : BitVec.ofBool b = if b then 1#1 else 0#1 := by
  cases b <;> rfl

theorem trainerPresent_ofResult (d : Descriptor) (trn : Byte) :
    (Outputs.ofResult (.ok d) trn).trainerPresent = if d.trainer = none then 0#1 else 1#1 := by
  cases ht : d.trainer <;> simp [Outputs.ofResult, ht]

theorem trnData_ofResult (d : Descriptor) (trn : Byte) :
    (Outputs.ofResult (.ok d) trn).trnData = if d.trainer = none then 0x00#8 else trn := by
  cases ht : d.trainer <;> simp [Outputs.ofResult, ht]

/-! ### What Decode reads, and the index of its failure -/

theorem headerOf_congr {B C : Nat → Byte} (h : ∀ i, i < 16 → B i = C i) :
    headerOf B = headerOf C := by
  apply header_ext
  intro i hi
  rw [headerOf_getElem, headerOf_getElem, h i hi]

theorem trainerOf_congr {B C : Nat → Byte} (h : ∀ i, i < 528 → B i = C i) :
    trainerOf B = trainerOf C := by
  apply trainerBlock_ext
  intro a ha
  rw [trainerOf_getElem, trainerOf_getElem, h (16 + a) (by omega)]

theorem decodeInput_eq_of_agree_below {n : Nat} {B C : Nat → Byte}
    (h : ∀ i, i < n → B i = C i) : decodeInput n B = decodeInput n C :=
  decodeInput_congr (fun hn => headerOf_congr fun i hi => h i (by omega))
    fun hn _ => trainerOf_congr fun i hi => h i (by omega)

theorem decodeInput_eq_of_agree_on_header {n : Nat} {B C : Nat → Byte}
    (h : ∀ i, i < 16 → B i = C i) (hf : trainerFlag (headerOf C) = false) :
    decodeInput n B = decodeInput n C := by
  have hh : headerOf B = headerOf C := headerOf_congr h
  refine decodeInput_congr (fun _ => hh) fun _ hset => ?_
  rw [hh, hf] at hset
  contradiction

theorem magicCheck_index_mem {m0 m1 m2 m3 : Byte} {i : Fin 16}
    (h : magicCheck m0 m1 m2 m3 = some (.invalidHeader i)) : i ∈ [0, 1, 2, 3] := by
  rw [magicCheck_eq] at h
  split_ifs at h <;> cases h <;> decide

theorem decodeInput_index_mem {n : Nat} {B : Nat → Byte} {i : Fin 16}
    (h : decodeInput n B = .err (.invalidHeader i)) : i ∈ [0, 1, 2, 3, 6] := by
  obtain ⟨-, hd⟩ | ⟨-, e, hm, hd⟩ | ⟨-, -, -, -, hd⟩ | ⟨-, -, -, hd⟩ := decodeInput_cases n B
  case inl => rw [hd] at h; cases h
  case inr.inl =>
    obtain rfl : e = .invalidHeader i := by rw [hd] at h; exact DecodeResult.err.inj h
    exact List.mem_append_left [6] (magicCheck_index_mem hm)
  case inr.inr.inl => rw [hd] at h; cases h; decide
  case inr.inr.inr => rw [hd] at h; cases h

/-! ### The statements -/

/-- Settles O12: the three cases of PUSH are those of `afterPush`; its store is `HDR[CNT]` below 16
and, with the trainer flag, `TRN[CNT - 16]` from there to 527. -/
theorem pushStoresTheByteAndCounts : Obligations.PushStoresTheByteAndCounts := by
  refine ⟨fun din => decode_pins_of_decodeCmd (decodeCmd_push din), fun s din =>
    ⟨afterPush din s, exec_push din s, afterPush_phase s din, afterPush_sameOwn s din,
      afterPush_of_done din, fun _ => afterPush_of_full din, afterPush_cnt_toNat din,
      fun hp hc => ?header, fun hp h16 h528 => ?trainer⟩⟩
  case header => exact ⟨afterPush_hdr_getElem din hp, afterPush_trnByte_of_header din hc⟩
  case trainer =>
    exact ⟨afterPush_hdr_of_ge din h16, afterPush_trnByte_of_flag din hp h16 h528,
      afterPush_trnByte_of_no_flag din⟩

/-- Settles O11: the code `0b00` is NOP, and NOP answers the state it is given. -/
theorem nopChangesNothing : Obligations.NopChangesNothing :=
  ⟨fun din => decode_pins_of_decodeCmd (decodeCmd_nop din), exec_nop⟩

/-- Settles O13: END writes `PHASE` alone, and neither `CNT` nor the bytes pushed depend on it. -/
theorem endShowsTheDecode : Obligations.EndShowsTheDecode :=
  ⟨fun din => decode_pins_of_decodeCmd (decodeCmd_endInput din), fun s =>
    ⟨exec_endInput s, fun hp => by rw [exec_endInput, setPhase_same s hp],
      outputs_of_done (s := s.setPhase .done) rfl⟩⟩

/-- Settles O14: CLR is `restart`, which touches neither `HDR` nor `TRN`. -/
theorem clrRestartsAndKeepsContents : Obligations.ClrRestartsAndKeepsContents :=
  ⟨fun din => decode_pins_of_decodeCmd (decodeCmd_clr din), fun s =>
    ⟨s.restart, exec_clr s, restart_cnt s, restart_phase s, restart_hdr s, trnByte_restart s,
      restart_sameOwn s, outputs_of_run (restart_phase s)⟩⟩

/-- Settles O15: RESET is `restart` and the loss of `HDR` and `TRN`, which no output shows in
`RUN`. -/
theorem resetRestarts : Obligations.ResetRestarts :=
  ⟨fun _ _ => decode_pinsWord_of_rst_high rfl, fun s =>
    ⟨s.restart.loseContents, exec_reset s, rfl, rfl, rfl, rfl, outputs_of_run rfl⟩⟩

/-- Settles O21: in `RUN` nothing shows; in `DONE` the ports show the result of `Decode`, which
reads the header from `HDR` and the trainer from `TRN`, and only as far as its length and the
trainer flag go. -/
theorem outputsShowDecodeOfTheBytesPushed : Obligations.OutputsShowDecodeOfTheBytesPushed := by
  intro s a
  refine ⟨fun hp => outputs_of_run hp a, fun hp => ⟨fun hd => ?tooShort, fun i hd => ?invalid,
    fun d hd => ?success⟩, fun k hk => inputByte_of_lt s hk, fun x _ => inputByte_trainer s x,
    fun Q hQ => decodeInput_eq_of_agree_below hQ, fun hf Q hQ => ?noTrainer,
    fun i hd => decodeInput_index_mem hd⟩
  case tooShort => rw [outputs_of_done hp, hd]; rfl
  case invalid => rw [outputs_of_done hp, hd]; rfl
  case success =>
    rw [outputs_of_done hp, hd]
    exact ⟨rfl, rfl, rfl, rfl, ofBool_eq_ite _, ofBool_eq_ite _, trainerPresent_ofResult d _,
      trnData_ofResult d _⟩
  case noTrainer =>
    have hflag : trainerFlag (headerOf s.inputByte) = false := by rw [headerOf_inputByte]; exact hf
    exact decodeInput_eq_of_agree_on_header hQ hflag

end Sys2Proof.Machine
end

section
/-! PROOF. The failures of a decode and their causes (R112, R114). -/

namespace Sys2Proof.Machine

/-- R114: a failure comes from the first of LENCHK, MAGIC and the trainer extractor that raises
one. -/
theorem decodeInput_eq_err_iff {n : Nat} {B : Nat → Byte} {e : DecodeError} :
    decodeInput n B = .err e ↔
      lenchk n = some e ∨
      (lenchk n = none ∧ magicCheck (B 0) (B 1) (B 2) (B 3) = some e) ∨
      (lenchk n = none ∧ magicCheck (B 0) (B 1) (B 2) (B 3) = none ∧
        trainerField n B = .error e) := by
  cases hl : lenchk n with
  | some e' => simp [decodeInput, hl]
  | none =>
    cases hm : magicCheck (B 0) (B 1) (B 2) (B 3) with
    | some e' => simp [decodeInput, hl, hm]
    | none => cases ht : trainerField n B <;> simp [decodeInput, hl, hm, ht]

theorem lenchk_eq_some_iff {n : Nat} {e : DecodeError} :
    lenchk n = some e ↔ n < 16 ∧ e = .tooShort := by
  rw [lenchk_eq, Option.ite_none_right_eq_some, Option.some_inj, eq_comm (a := e)]

theorem lenchk_eq_none_iff {n : Nat} : lenchk n = none ↔ 16 ≤ n := by
  simp [lenchk_eq]

/-- MAGIC raises `InvalidHeader` with the index of the first wrong byte, and nothing else (R64). -/
theorem magicCheck_eq_some_iff {m0 m1 m2 m3 : Byte} {e : DecodeError} :
    magicCheck m0 m1 m2 m3 = some e ↔
      (m0 ≠ 0x4E#8 ∧ e = .invalidHeader 0) ∨
      (m0 = 0x4E#8 ∧ m1 ≠ 0x45#8 ∧ e = .invalidHeader 1) ∨
      (m0 = 0x4E#8 ∧ m1 = 0x45#8 ∧ m2 ≠ 0x53#8 ∧ e = .invalidHeader 2) ∨
      (m0 = 0x4E#8 ∧ m1 = 0x45#8 ∧ m2 = 0x53#8 ∧ m3 ≠ 0x1A#8 ∧ e = .invalidHeader 3) := by
  rw [magicCheck_eq]
  split_ifs <;> simp_all [eq_comm (a := e)]

/-- MAGIC passes exactly when the first four bytes of the input are the signature. -/
theorem magicCheck_input_eq_none_iff {B : Nat → Byte} :
    magicCheck (B 0) (B 1) (B 2) (B 3) = none ↔
      B 0 = 0x4E#8 ∧ B 1 = 0x45#8 ∧ B 2 = 0x53#8 ∧ B 3 = 0x1A#8 := by
  have h := (magicCheck_eq_none_iff (headerOf B)).trans (signatureOk_iff (headerOf B))
  simpa only [headerOf_getElem] using h

/-- The trainer extractor raises `InvalidHeader(6)`, with the flag set and bytes missing, and nothing
else (R95). -/
theorem trainerField_eq_error_iff {n : Nat} {B : Nat → Byte} {e : DecodeError} :
    trainerField n B = .error e ↔
      (B 6).getLsbD 2 = true ∧ n < 528 ∧ e = .invalidHeader 6 := by
  rw [trainerField_eq, trainerFlag, headerOf_getElem]
  split_ifs <;> simp_all [eq_comm (a := e)]

/-- `TooShort` is LENCHK's: no later stage raises it. -/
theorem decodeInput_tooShort_iff {n : Nat} {B : Nat → Byte} :
    decodeInput n B = .err .tooShort ↔ n < 16 := by
  simp [decodeInput_eq_err_iff, lenchk_eq_some_iff, magicCheck_eq_some_iff,
    trainerField_eq_error_iff]

/-- An index other than 6 is MAGIC's, on an input that is long enough. -/
theorem decodeInput_invalidHeader_iff_of_ne {n : Nat} {B : Nat → Byte} {i : Fin 16} (hi : i ≠ 6) :
    decodeInput n B = .err (.invalidHeader i) ↔
      16 ≤ n ∧ magicCheck (B 0) (B 1) (B 2) (B 3) = some (.invalidHeader i) := by
  simp [decodeInput_eq_err_iff, lenchk_eq_some_iff, lenchk_eq_none_iff, trainerField_eq_error_iff,
    hi]

/-- The index 6 is the trainer extractor's, past the length and the signature. -/
theorem decodeInput_invalidHeader_six_iff {n : Nat} {B : Nat → Byte} :
    decodeInput n B = .err (.invalidHeader 6) ↔
      16 ≤ n ∧ magicCheck (B 0) (B 1) (B 2) (B 3) = none ∧
        trainerField n B = .error (.invalidHeader 6) := by
  simp [decodeInput_eq_err_iff, lenchk_eq_some_iff, lenchk_eq_none_iff, magicCheck_eq_some_iff]

/-- Settles O47: each failure is raised at one stage of `Decode`, `TooShort` by LENCHK, the indices
0 to 3 by MAGIC and 6 by the trainer extractor, and a stage is reached only past the ones before
it. -/
theorem failuresAndTheirOrder : Obligations.FailuresAndTheirOrder := by
  intro n B
  refine ⟨decodeInput_tooShort_iff, ?byte0, ?byte1, ?byte2, ?byte3, ?trainer,
    fun i hd => decodeInput_index_mem hd⟩
  case byte0 | byte1 | byte2 | byte3 =>
    rw [decodeInput_invalidHeader_iff_of_ne (by decide), magicCheck_eq_some_iff]
    simp
  case trainer =>
    rw [decodeInput_invalidHeader_six_iff, magicCheck_input_eq_none_iff, trainerField_eq_error_iff]
    tauto

end Sys2Proof.Machine
end

section
/-! PROOF. Every well-formed instruction is read back from its encoding, and whatever decodes is
well-formed (R48 to R57). -/

namespace Sys2Proof.Machine

/-! ### The header that the encoder writes -/

section
variable (b4 b5 b6 b7 b8 b9 b12 : Byte)

theorem signedHeader_hasSignature : HasSignature (signedHeader b4 b5 b6 b7 b8 b9 b12) :=
  ⟨rfl, rfl, rfl, rfl⟩

@[simp] theorem signedHeader_four : (signedHeader b4 b5 b6 b7 b8 b9 b12)[4] = b4 := rfl
@[simp] theorem signedHeader_five : (signedHeader b4 b5 b6 b7 b8 b9 b12)[5] = b5 := rfl
@[simp] theorem signedHeader_six : (signedHeader b4 b5 b6 b7 b8 b9 b12)[6] = b6 := rfl
@[simp] theorem signedHeader_seven : (signedHeader b4 b5 b6 b7 b8 b9 b12)[7] = b7 := rfl
@[simp] theorem signedHeader_eight : (signedHeader b4 b5 b6 b7 b8 b9 b12)[8] = b8 := rfl
@[simp] theorem signedHeader_nine : (signedHeader b4 b5 b6 b7 b8 b9 b12)[9] = b9 := rfl
@[simp] theorem signedHeader_twelve : (signedHeader b4 b5 b6 b7 b8 b9 b12)[12] = b12 := rfl

end

theorem signedHeader_marked (b4 b5 b6 b8 b9 b12 : Byte) (hi : BitVec 4) :
    MarkedExtended (signedHeader b4 b5 b6 (markedByte hi) b8 b9 b12) := markedByte_mark hi

/-! ### The fields that the encoder writes into a byte -/

theorem flag_bit_zero (bit : BitVec 1) : (0#7 ++ bit : Byte).extractLsb' 0 1 = bit := by
  revert bit; decide

theorem flag_bit_one (bit : BitVec 1) : (0#6 ++ bit ++ 0#1 : Byte).extractLsb' 1 1 = bit := by
  revert bit; decide

theorem flag_bit_two (bit : BitVec 1) : (0#5 ++ bit ++ 0#2 : Byte).extractLsb' 2 1 = bit := by
  revert bit; decide

theorem flag_bit_three (bit : BitVec 1) : (0#4 ++ bit ++ 0#3 : Byte).extractLsb' 3 1 = bit := by
  revert bit; decide

theorem marker_bits (mark : BitVec 2) : (0#4 ++ mark ++ 0#2 : Byte).extractLsb' 2 2 = mark := by
  revert mark; decide

theorem timing_bits (t : BitVec 2) : (0#6 ++ t : Byte).extractLsb' 0 2 = t := by
  revert t; decide

/-- A byte whose low nibble is 0 carries no `Extended` marker. -/
theorem signedHeader_not_marked {b4 b5 b6 b8 b9 b12 : Byte} (hi : BitVec 4) :
    ¬ MarkedExtended (signedHeader b4 b5 b6 (hi ++ 0#4) b8 b9 b12) := by
  rw [MarkedExtended, signedHeader_seven]
  revert hi; decide

/-! ### What a validated header selects: the rows of the flags, SUBMAP and TIMING -/

section
variable {h : Header}

theorem decode_vmirror (hs : HasSignature h) :
    decode (.hdr .vmirror h) = .ok (.vmirror (h[6].extractLsb' 0 1)) :=
  decode_hdr_of_onValid hs (by rw [selectRow, Field.vmirror])

theorem decode_battery (hs : HasSignature h) :
    decode (.hdr .battery h) = .ok (.battery (h[6].extractLsb' 1 1)) :=
  decode_hdr_of_onValid hs (by rw [selectRow, Field.battery])

theorem decode_trainerf (hs : HasSignature h) :
    decode (.hdr .trainerf h) = .ok (.trainerf (h[6].extractLsb' 2 1)) :=
  decode_hdr_of_onValid hs (by rw [selectRow, Field.trainerFlag])

theorem decode_fourscr (hs : HasSignature h) :
    decode (.hdr .fourscr h) = .ok (.fourscr (h[6].extractLsb' 3 1)) :=
  decode_hdr_of_onValid hs (by rw [selectRow, Field.fourScreen])

theorem onExtended_of_marked (hs : HasSignature h) (hm : MarkedExtended h) (i : Instr) :
    onExtended h i = some i :=
  if_pos (Bool.and_eq_true_iff.2
    ⟨(signatureOk_iff h).2 hs, (isExtended_iff_markedExtended h).2 hm⟩)

theorem decode_submap_of_marked (hs : HasSignature h) (hm : MarkedExtended h) :
    decode (.hdr .submap h) = .ok (.submapE (h[8].extractLsb' 4 4)) := by
  rw [decode, selectRow, onExtended_of_marked hs hm, Field.submapper]

theorem decode_timing_of_marked (hs : HasSignature h) (hm : MarkedExtended h) :
    decode (.hdr .timing h) = .ok (.timingE (h[12].extractLsb' 0 2)) := by
  rw [decode, selectRow, onExtended_of_marked hs hm, Field.timing]

end

/-! ### Decoding the encoding -/

theorem decode_encode_dialectL {mark : BitVec 2} (hmark : mark ≠ 0b10#2) :
    decode (encode (.dialectL mark)) = .ok (.dialectL mark) := by
  rw [encode, decode_dialect_of_not_marked (signedHeader_hasSignature ..),
    signedHeader_seven, marker_bits]
  rwa [MarkedExtended, signedHeader_seven, marker_bits]

theorem decode_encode_mapperL (lo mid : BitVec 4) :
    decode (encode (.mapperL lo mid)) = .ok (.mapperL lo mid) := by
  rw [encode, decode_mapper_of_not_marked (signedHeader_hasSignature ..)
    (signedHeader_not_marked mid), signedHeader_six, signedHeader_seven, nibbles_hi, nibbles_hi]

theorem decode_encode_prgsizeEP (lo : Byte) {hi : BitVec 4} (hhi : hi ≠ 0xF#4) :
    decode (encode (.prgsizeEP lo hi)) = .ok (.prgsizeEP lo hi) := by
  rw [encode, decode_prgsize_of_not_expSelect (signedHeader_hasSignature ..)
    (signedHeader_marked ..), signedHeader_four, signedHeader_nine, nibbles_lo]
  rwa [signedHeader_nine, nibbles_lo]

theorem decode_encode_chrsizeEP (lo : Byte) {hi : BitVec 4} (hhi : hi ≠ 0xF#4) :
    decode (encode (.chrsizeEP lo hi)) = .ok (.chrsizeEP lo hi) := by
  rw [encode, decode_chrsize_of_not_expSelect (signedHeader_hasSignature ..)
    (signedHeader_marked ..), signedHeader_five, signedHeader_nine, nibbles_hi]
  rwa [signedHeader_nine, nibbles_hi]

/-- Settles O1: the encoder writes the signature, the marker the row wants and the operands into the
fields that the row reads; the two conditions of well-formedness are what DIALECT.L and the plain
counts ask of their operand. -/
theorem encodeThenDecodeGivesTheInstruction :
    Obligations.EncodeThenDecodeGivesTheInstruction := by
  intro i hwf
  have hsig := signedHeader_hasSignature
  have hext := signedHeader_marked
  cases i with
  | lenchk | magic m0 m1 m2 m3 | reset => rfl
  | dialectE => exact decode_dialect_of_marked (hsig ..) (hext ..)
  | dialectL mark => exact decode_encode_dialectL (bne_iff_ne.1 hwf)
  | vmirror bit => rw [encode, decode_vmirror (hsig ..), signedHeader_six, flag_bit_zero]
  | battery bit => rw [encode, decode_battery (hsig ..), signedHeader_six, flag_bit_one]
  | trainerf bit => rw [encode, decode_trainerf (hsig ..), signedHeader_six, flag_bit_two]
  | fourscr bit => rw [encode, decode_fourscr (hsig ..), signedHeader_six, flag_bit_three]
  | mapperE lo mid hi =>
    rw [encode, decode_mapper_of_marked (hsig ..) (hext ..), signedHeader_six, signedHeader_seven,
      signedHeader_eight, nibbles_hi, markedByte_hi, nibbles_lo]
  | mapperL lo mid => exact decode_encode_mapperL lo mid
  | submapE sub =>
    rw [encode, decode_submap_of_marked (hsig ..) (hext ..), signedHeader_eight, nibbles_hi]
  | timingE t =>
    rw [encode, decode_timing_of_marked (hsig ..) (hext ..), signedHeader_twelve, timing_bits]
  | prgsizeEX lo => exact decode_prgsize_of_expSelect (hsig ..) (hext ..) (nibbles_lo ..)
  | prgsizeEP lo hi => exact decode_encode_prgsizeEP lo (bne_iff_ne.1 hwf)
  | prgsizeL lo => exact decode_prgsize_of_not_marked (hsig ..) (signedHeader_not_marked 0)
  | chrsizeEX lo => exact decode_chrsize_of_expSelect (hsig ..) (hext ..) (nibbles_hi ..)
  | chrsizeEP lo hi => exact decode_encode_chrsizeEP lo (bne_iff_ne.1 hwf)
  | chrsizeL lo => exact decode_chrsize_of_not_marked (hsig ..) (signedHeader_not_marked 0)
  | trainerCopy => exact decode_trainer_of_flag (hsig ..) rfl
  | trainerAbsent => exact decode_trainer_of_no_flag (hsig ..) rfl
  | assemble => exact decode_assemble (hsig ..)
  | nop => rw [encode, decode, decodeCmd_nop]
  | push din => rw [encode, decode, decodeCmd_push]
  | endInput => rw [encode, decode, decodeCmd_endInput]
  | clr => rw [encode, decode, decodeCmd_clr]

/-! ### Whatever decodes is well-formed -/

theorem onValid_eq_some {h : Header} {i j : Instr} (hd : onValid h i = some j) : i = j :=
  (Option.ite_none_right_eq_some.1 hd).2 |> Option.some.inj

theorem onExtended_eq_some {h : Header} {i j : Instr} (hd : onExtended h i = some j) : i = j :=
  (Option.ite_none_right_eq_some.1 hd).2 |> Option.some.inj

/-- The operands of a selected row are ones that the row admits. -/
theorem selectRow_wellFormed {g : HdrGroup} {h : Header} {i : Instr}
    (hd : selectRow g h = some i) : i.WellFormed := by
  cases g with
  | len | magic => obtain rfl := Option.some.inj hd; rfl
  | vmirror | battery | trainerf | fourscr | assemble => obtain rfl := onValid_eq_some hd; rfl
  | submap | timing => obtain rfl := onExtended_eq_some hd; rfl
  | mapper | trainer => obtain rfl := onValid_eq_some hd; split <;> rfl
  | dialect =>
    obtain rfl := onValid_eq_some hd
    split
    · rfl
    · rename_i hext; exact bne_iff_ne.2 (mt beq_iff_eq.2 hext)
  | prgsize | chrsize =>
    obtain rfl := onValid_eq_some hd
    split
    · split
      · rfl
      · rename_i hhi; exact bne_iff_ne.2 hhi
    · rfl

theorem decodeCmd_wellFormed (w : CmdWord) : (decodeCmd w).WellFormed := by
  unfold decodeCmd
  split <;> rfl

theorem decode_wellFormed {e : Encoded} {i : Instr} (hd : decode e = .ok i) : i.WellFormed := by
  cases e with
  | hdr g h =>
    cases hrow : selectRow g h with
    | none => simp [decode, hrow] at hd
    | some j =>
      obtain rfl : j = i := by simpa [decode, hrow] using hd
      exact selectRow_wellFormed hrow
  | cmd w => obtain rfl := Except.ok.inj hd; exact decodeCmd_wellFormed w
  | rst b =>
    by_cases hb : b = 1#1
    · obtain rfl : Instr.reset = i := by simpa [decode, hb] using hd
      rfl
    · simp [decode, hb] at hd

/-- Settles O2: a selected row has operands that it admits, so O1 applies to it. -/
theorem decodedInstructionsAreWellFormed : Obligations.DecodedInstructionsAreWellFormed :=
  fun _ i hd => ⟨decode_wellFormed hd, encodeThenDecodeGivesTheInstruction i (decode_wellFormed hd)⟩

end Sys2Proof.Machine
end

section
/-! PROOF. What a request to evaluate a group does to the signals (R56, R62 to R98; log 1, 11,
13). -/

namespace Sys2Proof.Machine

/-! ### Requests to evaluate a group -/

/-- What the row that group `g` selects, if any, answers in `s`. -/
def State.runRow (s : State) (g : HdrGroup) : Host.Outcome State Fault Refusal :=
  match decode (.hdr g s.hdr) with
  | .ok i => exec i s
  | .error _ => .next s

section
variable {s : State} {g : HdrGroup}

theorem runRow_of_ok {i : Instr} (hd : decode (.hdr g s.hdr) = .ok i) : s.runRow g = exec i s := by
  rw [State.runRow, hd]

theorem runRow_of_error {r : Reject} (hd : decode (.hdr g s.hdr) = .error r) :
    s.runRow g = .next s := by
  rw [State.runRow, hd]

variable {rest : List Stimulus} (hin : s.inputs = .evaluate g :: rest)
include hin

theorem step_evaluate_of_result (hres : s.sig.result.isSome) :
    step s = .next (s.setInputs rest) := by
  rw [step_evaluate s g rest hin, headerWord_eq, if_pos hres]

theorem step_evaluate_of_incomplete (hg : ¬ (g = .len ∨ 16 ≤ s.cnt.toNat)) :
    step s = .next (s.setInputs rest) := by
  rw [step_evaluate s g rest hin, headerWord_eq, if_neg hg, ite_self]

theorem step_evaluate_of_complete (hres : ¬ s.sig.result.isSome)
    (hg : g = .len ∨ 16 ≤ s.cnt.toNat) : step s = (s.setInputs rest).runRow g := by
  rw [step_evaluate s g rest hin, headerWord_eq, if_neg hres, if_pos hg]
  rfl

end

/-! ### Headers without the signature -/

theorem onValid_of_not_hasSignature {h : Header} (hs : ¬ HasSignature h) (i : Instr) :
    onValid h i = none :=
  if_neg (mt (signatureOk_iff h).1 hs)

theorem onExtended_of_not_hasSignature {h : Header} (hs : ¬ HasSignature h) (i : Instr) :
    onExtended h i = none :=
  if_neg fun hsig => hs ((signatureOk_iff h).1 (Bool.and_eq_true_iff.1 hsig).1)

theorem selectRow_of_not_hasSignature {g : HdrGroup} {h : Header} (hs : ¬ HasSignature h)
    (hlen : g ≠ .len) (hmagic : g ≠ .magic) : selectRow g h = none := by
  cases g with
  | len => exact absurd rfl hlen
  | magic => exact absurd rfl hmagic
  | submap | timing => exact onExtended_of_not_hasSignature hs _
  | _ => exact onValid_of_not_hasSignature hs _

theorem decode_hdr_of_selectRow_none {g : HdrGroup} {h : Header} (hrow : selectRow g h = none) :
    decode (.hdr g h) = .error (.noRow g) := by
  rw [decode, hrow]

/-! ### `Legacy` headers select nothing from SUBMAP and TIMING -/

theorem onExtended_of_not_marked {h : Header} (hm : ¬ MarkedExtended h) (i : Instr) :
    onExtended h i = none :=
  if_neg fun hext => hm ((isExtended_iff_markedExtended h).1 (Bool.and_eq_true_iff.1 hext).2)

theorem decode_submap_of_not_marked {h : Header} (hm : ¬ MarkedExtended h) :
    decode (.hdr .submap h) = .error (.noRow .submap) :=
  decode_hdr_of_selectRow_none (onExtended_of_not_marked hm _)

theorem decode_timing_of_not_marked {h : Header} (hm : ¬ MarkedExtended h) :
    decode (.hdr .timing h) = .error (.noRow .timing) :=
  decode_hdr_of_selectRow_none (onExtended_of_not_marked hm _)

/-! ### The flags of the exponent form, by dialect -/

theorem prgExp_of_marked {h : Header} (hm : MarkedExtended h) :
    prgExp h = true ↔ h[9].extractLsb' 0 4 = 0xF#4 := by
  rw [prgExp, prgRaw_extended ((isExtended_iff_markedExtended h).2 hm), exponentForm_merged]

theorem prgExp_of_not_marked {h : Header} (hm : ¬ MarkedExtended h) : prgExp h = false := by
  rw [prgExp, prgRaw, if_neg (mt (dialect_eq_extended_iff h).1 hm), exponentForm_plain]

theorem chrExp_of_marked {h : Header} (hm : MarkedExtended h) :
    chrExp h = true ↔ h[9].extractLsb' 4 4 = 0xF#4 := by
  rw [chrExp, chrRaw_extended ((isExtended_iff_markedExtended h).2 hm), exponentForm_merged]

theorem chrExp_of_not_marked {h : Header} (hm : ¬ MarkedExtended h) : chrExp h = false := by
  rw [chrExp, chrRaw, if_neg (mt (dialect_eq_extended_iff h).1 hm), exponentForm_plain]

/-! ### What the selected rows drive -/

/-- What the row that group `g` selects makes of the signals: each signal gets the value of its
function of the present contents (R28). -/
def State.driven (s : State) (g : HdrGroup) : Signals → Signals :=
  match g with
  | .len =>
    match lenchk s.inputLen with
    | some e => fun x => { x with result := some (.err e) }
    | none => fun x => { x with lenPassed := true }
  | .magic =>
    match magicCheck s.hdr[0] s.hdr[1] s.hdr[2] s.hdr[3] with
    | some e => fun x => { x with result := some (.err e) }
    | none => fun x => { x with magicPassed := true }
  | .dialect => fun x => { x with dialect := some (dialect s.hdr) }
  | .vmirror => fun x => { x with verticalMirroring := some (verticalMirroring s.hdr) }
  | .battery => fun x => { x with battery := some (battery s.hdr) }
  | .trainerf => fun x => { x with trainerFlag := some (trainerFlag s.hdr) }
  | .fourscr => fun x => { x with fourScreen := some (fourScreenVram s.hdr) }
  | .mapper => fun x => { x with mapper := some (mapper s.hdr) }
  | .submap => fun x => { x with
      submapper := if dialect s.hdr = .extended then some (s.hdr[8].extractLsb' 4 4)
        else x.submapper }
  | .timing => fun x => { x with
      timing := if dialect s.hdr = .extended then some (regionTiming (s.hdr[12].extractLsb' 0 2))
        else x.timing }
  | .prgsize => fun x => { x with
      prg := some (prgUnits s.hdr), prgExp := if prgExp s.hdr = true then some true else x.prgExp }
  | .chrsize => fun x => { x with
      chr := some (chrUnits s.hdr), chrExp := if chrExp s.hdr = true then some true else x.chrExp }
  | .trainer =>
    match trainerField s.inputLen s.inputByte with
    | .error e => fun x => { x with result := some (.err e) }
    | .ok t => fun x => { x with trainer := some t }
  | .assemble => fun x =>
    match x.assembled with
    | some d => { x with result := some (.ok d) }
    | none => x

theorem exec_lenchk_driven (s : State) : exec .lenchk s = .next (s.drive (s.driven .len)) := by
  simp only [exec, execLenchk, State.driven]
  cases lenchk s.inputLen <;> rfl

theorem exec_magic_driven (s : State) :
    exec (.magic s.hdr[0] s.hdr[1] s.hdr[2] s.hdr[3]) s = .next (s.drive (s.driven .magic)) := by
  simp only [exec, execMagic, State.driven]
  cases magicCheck s.hdr[0] s.hdr[1] s.hdr[2] s.hdr[3] <;> rfl

theorem exec_assemble_driven (s : State) :
    exec .assemble s = .next (s.drive (s.driven .assemble)) := by
  simp only [exec, execAssemble, State.drive, State.driven]
  cases s.sig.assembled <;> rfl

section
variable {s : State} (hs : HasSignature s.hdr)
include hs

theorem runRow_dialect : s.runRow .dialect = .next (s.drive (s.driven .dialect)) := by
  by_cases hm : MarkedExtended s.hdr
  · have hdia : dialect s.hdr = .extended := (dialect_eq_extended_iff s.hdr).2 hm
    simp only [runRow_of_ok (decode_dialect_of_marked hs hm), exec_dialectE, State.driven, hdia]
  · have hdia : dialect s.hdr = .legacy :=
      (dialect_eq_legacy_iff s.hdr).2 (mt (dialect_eq_extended_iff s.hdr).1 hm)
    simp only [runRow_of_ok (decode_dialect_of_not_marked hs hm), exec_dialectL, State.driven, hdia]

theorem runRow_mapper : s.runRow .mapper = .next (s.drive (s.driven .mapper)) := by
  obtain ⟨i, hd, he, -⟩ := mapperFunctionIsTheSelectedRow s.hdr s hs
  exact (runRow_of_ok hd).trans he

theorem runRow_submap : s.runRow .submap = .next (s.drive (s.driven .submap)) := by
  by_cases hm : MarkedExtended s.hdr
  · simp only [runRow_of_ok (decode_submap_of_marked hs hm), State.driven,
      (dialect_eq_extended_iff s.hdr).2 hm, if_true]
    rfl
  · simp only [runRow_of_error (decode_submap_of_not_marked hm), State.driven,
      if_neg (mt (dialect_eq_extended_iff s.hdr).1 hm), drive_same]

theorem runRow_timing : s.runRow .timing = .next (s.drive (s.driven .timing)) := by
  by_cases hm : MarkedExtended s.hdr
  · simp only [runRow_of_ok (decode_timing_of_marked hs hm), State.driven,
      (dialect_eq_extended_iff s.hdr).2 hm, if_true]
    rfl
  · simp only [runRow_of_error (decode_timing_of_not_marked hm), State.driven,
      if_neg (mt (dialect_eq_extended_iff s.hdr).1 hm), drive_same]

theorem runRow_prgsize : s.runRow .prgsize = .next (s.drive (s.driven .prgsize)) := by
  by_cases hm : MarkedExtended s.hdr
  · simp only [State.driven, prgExp_of_marked hm, prgUnits_of_marked hm, reinterpret_merged]
    by_cases hx : s.hdr[9].extractLsb' 0 4 = 0xF#4
    · simp only [runRow_of_ok (decode_prgsize_of_expSelect hs hm hx), exec_prgsizeEX, if_pos hx]
    · simp only [runRow_of_ok (decode_prgsize_of_not_expSelect hs hm hx), exec_prgsizeEP, if_neg hx]
  · simp only [runRow_of_ok (decode_prgsize_of_not_marked hs hm), exec_prgsizeL, State.driven,
      prgUnits_of_not_marked hm, prgExp_of_not_marked hm, if_neg Bool.false_ne_true]

theorem runRow_chrsize : s.runRow .chrsize = .next (s.drive (s.driven .chrsize)) := by
  by_cases hm : MarkedExtended s.hdr
  · simp only [State.driven, chrExp_of_marked hm, chrUnits_of_marked hm, reinterpret_merged]
    by_cases hx : s.hdr[9].extractLsb' 4 4 = 0xF#4
    · simp only [runRow_of_ok (decode_chrsize_of_expSelect hs hm hx), exec_chrsizeEX, if_pos hx]
    · simp only [runRow_of_ok (decode_chrsize_of_not_expSelect hs hm hx), exec_chrsizeEP, if_neg hx]
  · simp only [runRow_of_ok (decode_chrsize_of_not_marked hs hm), exec_chrsizeL, State.driven,
      chrUnits_of_not_marked hm, chrExp_of_not_marked hm, if_neg Bool.false_ne_true]

/-- R98: TRAINER.COPY and TRAINER.ABSENT are the two branches of the TRAINER line of `Decode`. -/
theorem runRow_trainer : s.runRow .trainer = .next (s.drive (s.driven .trainer)) := by
  cases hf : trainerFlag s.hdr with
  | false =>
    simp only [runRow_of_ok (decode_trainer_of_no_flag hs hf), exec_trainerAbsent, State.driven,
      trainerField, headerOf_inputByte, hf, if_neg Bool.false_ne_true, trainerAbsent]
  | true =>
    simp only [runRow_of_ok (decode_trainer_of_flag hs hf), State.driven, trainerField,
      headerOf_inputByte, hf, if_true, exec, execTrainerCopy]
    cases trainerCopy s.inputLen s.inputByte <;> rfl

end

/-- LEN and MAGIC select a row on every header, the other groups on a header with the signature
(log 10); the row drives the signals of its group. -/
theorem runRow_eq {s : State} {g : HdrGroup} (hg : g = .len ∨ g = .magic ∨ HasSignature s.hdr) :
    s.runRow g = .next (s.drive (s.driven g)) := by
  obtain rfl | rfl | hs := hg
  · exact exec_lenchk_driven s
  · exact exec_magic_driven s
  cases g with
  | len => exact exec_lenchk_driven s
  | magic => exact exec_magic_driven s
  | dialect => exact runRow_dialect hs
  | vmirror => simp only [runRow_of_ok (decode_vmirror hs), exec, execVmirror, bitSet_extract]; rfl
  | battery => simp only [runRow_of_ok (decode_battery hs), exec, execBattery, bitSet_extract]; rfl
  | trainerf =>
    simp only [runRow_of_ok (decode_trainerf hs), exec, execTrainerf, bitSet_extract]; rfl
  | fourscr => simp only [runRow_of_ok (decode_fourscr hs), exec, execFourscr, bitSet_extract]; rfl
  | mapper => exact runRow_mapper hs
  | submap => exact runRow_submap hs
  | timing => exact runRow_timing hs
  | prgsize => exact runRow_prgsize hs
  | chrsize => exact runRow_chrsize hs
  | trainer => exact runRow_trainer hs
  | assemble => rw [runRow_of_ok (decode_assemble hs), exec_assemble_driven]

/-- Without the signature the groups past MAGIC do nothing (R56). -/
theorem runRow_of_unselected {s : State} {g : HdrGroup}
    (hg : ¬ (g = .len ∨ g = .magic ∨ HasSignature s.hdr)) : s.runRow g = .next s := by
  obtain ⟨hlen, hmagic, hs⟩ : g ≠ .len ∧ g ≠ .magic ∧ ¬ HasSignature s.hdr := by
    simpa only [not_or] using hg
  exact runRow_of_error
    (decode_hdr_of_selectRow_none (selectRow_of_not_hasSignature hs hlen hmagic))

/-! ### A step on a request -/

/-- Group `g` has a row to run on what the block holds: the header is complete, or the group is LEN
(log 11), and the header has the signature, or the group is LEN or MAGIC (log 10). -/
abbrev State.Selects (s : State) (g : HdrGroup) : Prop :=
  (g = .len ∨ 16 ≤ s.inputLen) ∧ (g = .len ∨ g = .magic ∨ HasSignature s.hdr)

/-- What a request to evaluate group `g` makes of the signals: nothing more once the decode has its
result (log 13). -/
def State.evaluated (s : State) (x : Signals) (g : HdrGroup) : Signals :=
  if x.result.isSome then x else if s.Selects g then s.driven g x else x

section
variable {s : State} {g : HdrGroup} {x : Signals}

theorem evaluated_of_result (hx : x.result.isSome) : s.evaluated x g = x := if_pos hx

theorem evaluated_of_unselected (hg : ¬ s.Selects g) : s.evaluated x g = x := by
  rw [State.evaluated, if_neg hg, ite_self]

theorem evaluated_of_open (hx : x.result = none) (hg : s.Selects g) :
    s.evaluated x g = s.driven g x := by
  rw [State.evaluated, hx, if_neg (by simp), if_pos hg]

end

theorem drive_congr {s : State} {f f' : Signals → Signals} (h : f s.sig = f' s.sig) :
    s.drive f = s.drive f' :=
  congrArg (fun x => { s with sig := x }) h

theorem drive_eq_self {s : State} {f : Signals → Signals} (h : f s.sig = s.sig) : s.drive f = s :=
  drive_congr (f' := fun x => x) h

/-- A step on a request changes the signals alone, as `evaluated` says. -/
theorem step_evaluate_eq {s : State} {g : HdrGroup} {rest : List Stimulus}
    (hin : s.inputs = .evaluate g :: rest) :
    step s = .next ((s.setInputs rest).drive fun x => s.evaluated x g) := by
  by_cases hres : s.sig.result.isSome
  · rw [step_evaluate_of_result hin hres, drive_eq_self (evaluated_of_result hres)]
  by_cases hcomplete : g = .len ∨ 16 ≤ s.inputLen
  · rw [step_evaluate_of_complete hin hres hcomplete]
    by_cases hrow : g = .len ∨ g = .magic ∨ HasSignature s.hdr
    · have hrun : s.evaluated s.sig g = s.driven g s.sig :=
        evaluated_of_open (Option.not_isSome_iff_eq_none.1 hres) ⟨hcomplete, hrow⟩
      rw [runRow_eq (s := s.setInputs rest) hrow]
      exact congrArg _ (drive_congr hrun.symm)
    · rw [runRow_of_unselected (s := s.setInputs rest) hrow,
        drive_eq_self (evaluated_of_unselected fun hsel => hrow hsel.2)]
  · rw [step_evaluate_of_incomplete hin hcomplete,
      drive_eq_self (evaluated_of_unselected fun hsel => hcomplete hsel.1)]

end Sys2Proof.Machine
end

section
/-! PROOF. The invariant that every step keeps (R28, R33, R37). -/

namespace Sys2Proof.Machine

/-! ### The value of `Decode`, stage by stage, for what the block holds -/

theorem decoded_of_lenchk {s : State} {e : DecodeError} (h : lenchk s.inputLen = some e) :
    s.decoded = .err e := by
  simp only [State.decoded, decodeInput, h]

theorem decoded_of_magicCheck {s : State} {e : DecodeError} (hn : 16 ≤ s.inputLen)
    (h : magicCheck s.hdr[0] s.hdr[1] s.hdr[2] s.hdr[3] = some e) : s.decoded = .err e := by
  simp only [State.decoded, decodeInput, lenchk_eq_none_iff.2 hn, headerOf_inputByte, h]

section
variable {s : State} (hv : s.Validated)
include hv

theorem decoded_of_trainerField_error {e : DecodeError}
    (h : trainerField s.inputLen s.inputByte = .error e) : s.decoded = .err e := by
  obtain ⟨hn, hs⟩ := hv
  simp only [State.decoded, decodeInput, lenchk_eq_none_iff.2 hn, headerOf_inputByte,
    (magicCheck_eq_none_iff s.hdr).2 hs, h]

theorem decoded_of_trainerField_ok {t : Option TrainerBlock}
    (h : trainerField s.inputLen s.inputByte = .ok t) :
    s.decoded = .ok (assemble (prgUnits s.hdr) (chrUnits s.hdr) (mapper s.hdr)
      (verticalMirroring s.hdr) (fourScreenVram s.hdr) t) := by
  obtain ⟨hn, hs⟩ := hv
  simp only [State.decoded, decodeInput, lenchk_eq_none_iff.2 hn, headerOf_inputByte,
    (magicCheck_eq_none_iff s.hdr).2 hs, h]

end

/-! ### The signals stay in agreement -/

theorem signalsAgree_of_idle {s : State} (h : s.sig = Signals.idle) : s.SignalsAgree := by
  constructor <;> simp [h, Signals.idle]

theorem assembled_eq_some {x : Signals} {d : Descriptor} (h : x.assembled = some d) :
    ∃ p c m v f t, x.prg = some p ∧ x.chr = some c ∧ x.mapper = some m ∧
      x.verticalMirroring = some v ∧ x.fourScreen = some f ∧ x.trainer = some t ∧
      d = assemble p c m v f t := by
  unfold Signals.assembled at h
  split at h
  · exact ⟨_, _, _, _, _, _, ‹_›, ‹_›, ‹_›, ‹_›, ‹_›, ‹_›, (Option.some.inj h).symm⟩
  · cases h

/-- What ASSEMBLE builds of signals in agreement is what `Decode` answers. -/
theorem decoded_of_assembled {s : State} (ha : s.SignalsAgree) {d : Descriptor}
    (hd : s.sig.assembled = some d) : s.decoded = .ok d := by
  obtain ⟨p, c, m, v, f, t, hp, hc, hm, hvm, hf, ht, rfl⟩ := assembled_eq_some hd
  obtain ⟨hv, rfl⟩ := ha.prg p hp
  obtain ⟨-, rfl⟩ := ha.chr c hc
  obtain ⟨-, rfl⟩ := ha.mapper m hm
  obtain ⟨-, rfl⟩ := ha.verticalMirroring v hvm
  obtain ⟨-, rfl⟩ := ha.fourScreen f hf
  exact decoded_of_trainerField_ok hv (ha.trainer t ht).2

theorem State.SignalsAgree.drive_result {s : State} (ha : s.SignalsAgree) {r : DecodeResult}
    (hr : s.decoded = r) :
    (s.drive fun x => { x with result := some r }).SignalsAgree :=
  { ha with result := fun _ h => (Option.some.inj h).symm.trans hr.symm }

theorem validated_and_eq {s : State} {α : Type} {v : α} (hv : s.Validated) :
    ∀ d, some v = some d → s.Validated ∧ d = v :=
  fun _ h => ⟨hv, (Option.some.inj h).symm⟩

/-- A selected row drives its signals in agreement with the block. -/
theorem driven_signalsAgree {s : State} {g : HdrGroup} (ha : s.SignalsAgree) (hg : s.Selects g) :
    (s.drive (s.driven g)).SignalsAgree := by
  obtain ⟨hcomplete, hrow⟩ := hg
  have hvalidated : g ≠ .len → g ≠ .magic → s.Validated := fun hlen hmagic =>
    ⟨hcomplete.resolve_left hlen,
      (signatureOk_iff s.hdr).2 ((hrow.resolve_left hlen).resolve_left hmagic)⟩
  cases g with
  | len =>
    rw [State.driven]
    cases hl : lenchk s.inputLen with
    | some e => exact ha.drive_result (decoded_of_lenchk hl)
    | none => exact { ha with lenPassed := fun _ => lenchk_eq_none_iff.1 hl }
  | magic =>
    have hn : 16 ≤ s.inputLen := hcomplete.resolve_left (by decide)
    rw [State.driven]
    cases hm : magicCheck s.hdr[0] s.hdr[1] s.hdr[2] s.hdr[3] with
    | some e => exact ha.drive_result (decoded_of_magicCheck hn hm)
    | none =>
      exact { ha with magicPassed := fun _ => ⟨hn, (magicCheck_eq_none_iff s.hdr).1 hm⟩ }
  | assemble =>
    cases hd : s.sig.assembled with
    | some d =>
      have hdrive : s.driven .assemble s.sig = { s.sig with result := some (.ok d) } := by
        simp only [State.driven, hd]
      rw [drive_congr (f' := fun x => { x with result := some (.ok d) }) hdrive]
      exact ha.drive_result (decoded_of_assembled ha hd)
    | none =>
      have hdrive : s.driven .assemble s.sig = s.sig := by simp only [State.driven, hd]
      rwa [drive_eq_self hdrive]
  | trainer =>
    have hv := hvalidated (by decide) (by decide)
    rw [State.driven]
    cases ht : trainerField s.inputLen s.inputByte with
    | error e => exact ha.drive_result (decoded_of_trainerField_error hv ht)
    | ok t =>
      exact { ha with trainer := fun _ h => ⟨hv, ht.trans (congrArg _ (Option.some.inj h))⟩ }
  | submap =>
    have hv := hvalidated (by decide) (by decide)
    refine { ha with submapper := fun d h => ?_ }
    obtain ⟨hx, h⟩ | ⟨-, h⟩ := ite_eq_iff.1 h
    · exact ⟨hv, hx, (Option.some.inj h).symm⟩
    · exact ha.submapper d h
  | timing =>
    have hv := hvalidated (by decide) (by decide)
    refine { ha with timing := fun d h => ?_ }
    obtain ⟨hx, h⟩ | ⟨-, h⟩ := ite_eq_iff.1 h
    · exact ⟨hv, hx, (Option.some.inj h).symm⟩
    · exact ha.timing d h
  | prgsize =>
    have hv := hvalidated (by decide) (by decide)
    refine { ha with prg := validated_and_eq hv, prgExp := fun d h => ?_ }
    obtain ⟨hx, h⟩ | ⟨-, h⟩ := ite_eq_iff.1 h
    · exact ⟨hv, (Option.some.inj h).symm.trans hx.symm⟩
    · exact ha.prgExp d h
  | chrsize =>
    have hv := hvalidated (by decide) (by decide)
    refine { ha with chr := validated_and_eq hv, chrExp := fun d h => ?_ }
    obtain ⟨hx, h⟩ | ⟨-, h⟩ := ite_eq_iff.1 h
    · exact ⟨hv, (Option.some.inj h).symm.trans hx.symm⟩
    · exact ha.chrExp d h
  | dialect =>
    exact { ha with dialect := validated_and_eq (hvalidated (by decide) (by decide)) }
  | vmirror =>
    exact { ha with verticalMirroring := validated_and_eq (hvalidated (by decide) (by decide)) }
  | battery =>
    exact { ha with battery := validated_and_eq (hvalidated (by decide) (by decide)) }
  | trainerf =>
    exact { ha with trainerFlag := validated_and_eq (hvalidated (by decide) (by decide)) }
  | fourscr =>
    exact { ha with fourScreen := validated_and_eq (hvalidated (by decide) (by decide)) }
  | mapper =>
    exact { ha with mapper := validated_and_eq (hvalidated (by decide) (by decide)) }

/-- A request to evaluate a group keeps the signals in agreement with the block. -/
theorem evaluated_signalsAgree {s : State} (g : HdrGroup) (ha : s.SignalsAgree) :
    (s.drive fun x => s.evaluated x g).SignalsAgree := by
  by_cases hres : s.sig.result.isSome
  · rwa [drive_eq_self (evaluated_of_result hres)]
  by_cases hsel : s.Selects g
  · rw [drive_congr (evaluated_of_open (Option.not_isSome_iff_eq_none.1 hres) hsel)]
    exact driven_signalsAgree ha hsel
  · rwa [drive_eq_self (evaluated_of_unselected hsel)]

/-! ### The invariant under commands and requests -/

/-- The invariant speaks of no stimulus to come and of no counter of free pins. -/
theorem State.Inv.of_stimulus {s : State} (h : s.Inv) (x : List Stimulus) (n : Nat) :
    State.Inv { s with inputs := x, freeEdges := n } :=
  ⟨h.cntInRange, h.trnCanonical, { h.signalsAgree with }⟩

theorem restart_inv {s : State} (h : Memory.wf s.trn = true) : s.restart.Inv :=
  ⟨Nat.zero_le _, h, signalsAgree_of_idle rfl⟩

/-- A PUSH that does not count does nothing (R106). -/
theorem afterPush_of_not_counting (din : Byte) {s : State}
    (h : ¬ (s.phase = .run ∧ s.cnt.toNat < 528)) : afterPush din s = s := by
  cases hp : s.phase with
  | run => exact afterPush_of_full din (Nat.le_of_not_lt fun hc => h ⟨hp, hc⟩)
  | done => exact afterPush_of_done din hp

theorem afterPush_inv (din : Byte) {s : State} (h : s.Inv) : (afterPush din s).Inv := by
  by_cases hcount : s.phase = .run ∧ s.cnt.toNat < 528
  · obtain ⟨hp, hc⟩ := hcount
    refine ⟨?_, afterPush_trn_wf s din h.trnCanonical, signalsAgree_of_idle ?_⟩
    · rw [afterPush_cnt_toNat din hp hc]; exact hc
    · rw [afterPush_sig, if_pos ⟨hp, hc⟩]
  · rwa [afterPush_of_not_counting din hcount]

theorem afterCommand_inv {i : Instr} (hc : IsCommand i) {s : State} (h : s.Inv) :
    (afterCommand s i).Inv := by
  obtain rfl | ⟨din, rfl⟩ | rfl | rfl | rfl := hc
  · exact h
  · exact afterPush_inv din h
  · exact ⟨h.cntInRange, h.trnCanonical, { h.signalsAgree with }⟩
  · exact restart_inv h.trnCanonical
  · exact ⟨Nat.zero_le _, rfl, signalsAgree_of_idle rfl⟩

/-- A step takes the next stimulus: at an edge it runs the command that the pins carry, listed or
free, and on a request it evaluates the group. -/
theorem step_cases (s : State) :
    (∃ x n i, IsCommand i ∧
      step s = .next (afterCommand { s with inputs := x, freeEdges := n } i)) ∨
    ∃ g rest, step s = .next ((s.setInputs rest).drive fun x => s.evaluated x g) := by
  cases hin : s.inputs with
  | nil =>
    obtain ⟨i, hd, hc⟩ := decode_pinsWord (Config.freePins s.freeEdges)
    refine .inl ⟨s.inputs, s.freeEdges + 1, i, hc, ?_⟩
    rw [step_free s hin hd, exec_command hc]
  | cons x rest =>
    cases x with
    | edge p =>
      obtain ⟨i, hd, hc⟩ := decode_pinsWord p
      refine .inl ⟨rest, s.freeEdges, i, hc, ?_⟩
      rw [step_edge s p rest hin hd, exec_command hc]
      rfl
    | evaluate g => exact .inr ⟨g, rest, step_evaluate_eq hin⟩

/-- Settles O54: a command that changes what the block holds leaves no signal standing, and a row
drives its signals with the values of their functions. -/
theorem everyStepKeepsTheInvariant : Obligations.EveryStepKeepsTheInvariant := by
  intro s t h hstep
  obtain ⟨x, n, i, hc, hs⟩ | ⟨g, rest, hs⟩ := step_cases s
  · obtain rfl := Host.Outcome.next.inj (hs.symm.trans hstep)
    exact afterCommand_inv hc (h.of_stimulus x n)
  · obtain rfl := Host.Outcome.next.inj (hs.symm.trans hstep)
    have h' : (s.setInputs rest).Inv := h.of_stimulus rest s.freeEdges
    exact ⟨h'.cntInRange, h'.trnCanonical, evaluated_signalsAgree g h'.signalsAgree⟩

/-- Settles O53: at reset `CNT` is 0, nothing is listed of `TRN` and no signal is evaluated. -/
theorem resetMeetsTheInvariant : Obligations.ResetMeetsTheInvariant :=
  ⟨Nat.zero_le _, reset_trn_wf, signalsAgree_of_idle rfl⟩

end Sys2Proof.Machine
end

section
/-! PROOF. What a step takes and runs (R104), and which rows a header selects (R56, R57). -/

namespace Sys2Proof.Machine

/-! ### The step -/

/-- Settles O7: a listed edge is taken off the list, an edge with free pins counts. -/
theorem stepRunsTheCommandOnThePins : Obligations.StepRunsTheCommandOnThePins :=
  fun s p _ hd => ⟨fun rest hin => step_edge s p rest hin hd, fun hin hp =>
    step_free s hin (hp ▸ hd)⟩

/-- Settles O8: a request runs the selected row when the header is complete and no result stands. -/
theorem stepRunsTheRowAGroupSelects : Obligations.StepRunsTheRowAGroupSelects := by
  intro s g rest hin
  refine ⟨fun i hres hg hd => ?runs, fun hres => ?ended, fun hlen hc => ?incomplete,
    fun r hd => ?noRow⟩
  case runs =>
    have hopen : ¬ s.sig.result.isSome := by rw [hres]; exact Bool.false_ne_true
    exact (step_evaluate_of_complete hin hopen hg).trans (runRow_of_ok hd)
  case ended => exact step_evaluate_of_result hin (Option.isSome_iff_ne_none.2 hres)
  case incomplete => exact step_evaluate_of_incomplete hin fun hg => hg.elim hlen (Nat.not_le.2 hc)
  case noRow =>
    by_cases hres : s.sig.result.isSome
    · exact step_evaluate_of_result hin hres
    by_cases hg : g = .len ∨ 16 ≤ s.cnt.toNat
    · exact (step_evaluate_of_complete hin hres hg).trans (runRow_of_error hd)
    · exact step_evaluate_of_incomplete hin hg

/-- Settles O9: a step is a command, which answers what `afterCommand` says, or an evaluation, which
drives signals; an operation is of layer 1 or a command. -/
theorem everyStepAnswersANextState : Obligations.EveryStepAnswersANextState := by
  refine ⟨fun s => ?step, fun i s => ?exec⟩
  case step => obtain ⟨_, _, _, -, h⟩ | ⟨_, _, h⟩ := step_cases s <;> exact ⟨_, h⟩
  case exec =>
    obtain hl | hc := layerOne_or_command i
    · exact (exec_layerOne hl s).imp' _ fun _ hf => hf
    · exact ⟨_, exec_command hc s⟩

/-! ### A word placed for the next step -/

theorem decodeTableWord_eq_some {nbits w : Nat} {i : Instr} (h : decodeTableWord nbits w = some i) :
    ∃ e, encodedOfTableWord nbits w = .ok e ∧ decode e = .ok i := by
  unfold decodeTableWord at h
  split at h
  · cases h
  · rename_i e he
    split at h
    · rename_i hd
      exact ⟨e, he, hd.trans (congrArg _ (Option.some.inj h))⟩
    · cases h

theorem cmdPins_word (w : CmdWord) : pinsWord (cmdPins w) = .cmd w := by
  rw [pinsWord_of_rst_low rfl, cmdPins, cmd_eta]

/-- The word placed is the one fetched, with the stimuli after it as they were (log 14). -/
theorem step_place {e : Encoded} {i : Instr} (s : State) (hd : decode e = .ok i) :
    ∃ t, step (s.place e) = exec i t ∧ t.inputs = s.inputs := by
  cases e with
  | cmd w =>
    refine ⟨_, step_edge _ (cmdPins w) s.inputs rfl ?_, rfl⟩
    rwa [cmdPins_word]
  | rst b =>
    by_cases hb : b = 1#1
    · subst hb
      exact ⟨_, step_edge _ _ s.inputs rfl ((decode_pinsWord_of_rst_high rfl).trans hd), rfl⟩
    · simp [decode, hb] at hd
  | hdr g h =>
    have hcomplete : 16 ≤ (s.place (.hdr g h)).cnt.toNat := by
      change 16 ≤ (if s.cnt.toNat < 16 then 16#10 else s.cnt).toNat
      split
      · decide
      · omega
    have hopen : ¬ (s.place (.hdr g h)).sig.result.isSome := by simp [State.place, Signals.idle]
    exact ⟨(s.place (.hdr g h)).setInputs s.inputs,
      (step_evaluate_of_complete rfl hopen (.inr hcomplete)).trans (runRow_of_ok hd), rfl⟩

/-- Settles O10: each of the three formats is placed where the step takes its word from. -/
theorem placedWordRunsAtTheNextStep : Obligations.PlacedWordRunsAtTheNextStep := by
  intro s nbits w i h
  obtain ⟨e, he, hd⟩ := decodeTableWord_eq_some h
  have hplace : s.withFetchWord nbits w = s.place e := by
    simp only [State.withFetchWord, State.placeTableWord, he]
  rw [hplace]
  exact step_place s hd

/-! ### The selection of rows -/

theorem decode_hdr_eq_noRow_iff {g : HdrGroup} {h : Header} :
    decode (.hdr g h) = .error (.noRow g) ↔ selectRow g h = none := by
  cases hrow : selectRow g h <;> simp [decode, hrow]

theorem onValid_eq_none_iff {h : Header} {i : Instr} :
    onValid h i = none ↔ ¬ HasSignature h := by
  simp only [onValid, signatureOk_iff, ite_eq_right_iff, reduceCtorEq, imp_false]

theorem onExtended_eq_none_iff {h : Header} {i : Instr} :
    onExtended h i = none ↔ ¬ (HasSignature h ∧ MarkedExtended h) := by
  simp only [onExtended, Bool.and_eq_true, signatureOk_iff, isExtended_iff_markedExtended,
    ite_eq_right_iff, reduceCtorEq, imp_false]

/-- Settles O4: the rows of every group but LEN and MAGIC want the signature, those of SUBMAP and
TIMING the marker too. -/
theorem groupsThatSelectNothing : Obligations.GroupsThatSelectNothing := by
  intro g h
  rw [decode_hdr_eq_noRow_iff]
  cases g with
  | len | magic => simp [selectRow]
  | submap | timing =>
    rw [selectRow, onExtended_eq_none_iff]
    simp only [ne_eq, reduceCtorEq]
    tauto
  | _ =>
    rw [selectRow, onValid_eq_none_iff]
    simp

/-- Settles O34: the two rows want the signature and the marker, and drive their own signal. -/
theorem droppedRowsGiveTheirFields : Obligations.DroppedRowsGiveTheirFields :=
  ⟨fun _ hs => ⟨fun hm => ⟨decode_submap_of_marked hs hm, decode_timing_of_marked hs hm⟩,
      fun hm => ⟨decode_submap_of_not_marked hm, decode_timing_of_not_marked hm⟩⟩,
    fun _ _ => rfl, fun _ => ⟨rfl, rfl, rfl, rfl⟩⟩

theorem exec_magic_of_mismatch {m0 m1 m2 m3 : Byte} {e : DecodeError}
    (h : magicCheck m0 m1 m2 m3 = some e) (s : State) :
    exec (.magic m0 m1 m2 m3) s = .next (s.raise e) := by
  simp only [exec, execMagic, h]

theorem exec_magic_of_match {m0 m1 m2 m3 : Byte} (h : magicCheck m0 m1 m2 m3 = none) (s : State) :
    exec (.magic m0 m1 m2 m3) s = .next (s.drive fun g => { g with magicPassed := true }) := by
  simp only [exec, execMagic, h]

/-- Settles O31: MAGIC's row takes any header, and `magicCheck` decides between the failure at each
of the four places and the pass. -/
theorem magicReportsTheFirstMismatch : Obligations.MagicReportsTheFirstMismatch := by
  refine ⟨fun _ => rfl, fun m0 m1 m2 m3 s => ⟨fun h0 => ?_, fun h0 h1 => ?_, fun h0 h1 h2 => ?_,
    fun h0 h1 h2 h3 => ?_, fun h0 h1 h2 h3 => ?_⟩⟩
  · exact exec_magic_of_mismatch (magicCheck_eq_some_iff.2 (.inl ⟨h0, rfl⟩)) s
  · exact exec_magic_of_mismatch (magicCheck_eq_some_iff.2 (.inr (.inl ⟨h0, h1, rfl⟩))) s
  · exact exec_magic_of_mismatch (magicCheck_eq_some_iff.2 (.inr (.inr (.inl ⟨h0, h1, h2, rfl⟩)))) s
  · exact exec_magic_of_mismatch
      (magicCheck_eq_some_iff.2 (.inr (.inr (.inr ⟨h0, h1, h2, h3, rfl⟩)))) s
  · exact exec_magic_of_match (by simp [magicCheck_eq, h0, h1, h2, h3]) s

/-- Settles O45: the six operands are all of what an assembled descriptor needs. -/
theorem assembleWithoutAnOperandDoesNothing : Obligations.AssembleWithoutAnOperandDoesNothing := by
  intro s hmissing
  have hnone : s.sig.assembled = none := by
    cases hd : s.sig.assembled with
    | none => rfl
    | some d =>
      obtain ⟨p, c, m, v, f, t, hp, hc, hm, hv, hf, ht, -⟩ := assembled_eq_some hd
      simp [hp, hc, hm, hv, hf, ht] at hmissing
  simp only [exec, execAssemble, hnone]

/-! ### Words written out -/

/-- Settles O6: seven words, each read by its format. -/
theorem writtenOutWordsDecode : Obligations.WrittenOutWordsDecode := by
  rw [Obligations.WrittenOutWordsDecode]
  decide

end Sys2Proof.Machine
end

section
/-! PROOF. Evaluating the pipeline is `Decode` (R56, R98). -/

namespace Sys2Proof.Machine

/-! ### A run of requests -/

/-- A run over requests is the groups evaluated one after the other. -/
theorem run_evaluate (gs : List HdrGroup) (rest : List Stimulus) (s : State)
    (hin : s.inputs = gs.map .evaluate ++ rest) :
    Host.Core.run Sys2Proof.core gs.length s =
      .next ((s.setInputs rest).drive fun x => gs.foldl s.evaluated x) := by
  induction gs generalizing s with
  | nil =>
    have hrest : s.setInputs rest = s := by rw [← show s.inputs = rest from hin, setInputs_self]
    rw [hrest]
    rfl
  | cons g gs ih => exact (run_next gs.length (step_evaluate_eq hin)).trans (ih _ rfl)

/-! ### Once the decode has its result -/

theorem foldl_evaluated_of_result (s : State) (gs : List HdrGroup) {x : Signals}
    (hx : x.result.isSome) : gs.foldl s.evaluated x = x := by
  induction gs with
  | nil => rfl
  | cons g gs ih =>
    rw [List.foldl_cons, evaluated_of_result hx, ih]

/-! ### The groups that extract a field of a validated header -/

/-- The groups between MAGIC and TRAINER, none of which can fail (R98). -/
def fieldGroups : List HdrGroup :=
  [.dialect, .vmirror, .battery, .trainerf, .fourscr, .mapper, .submap, .timing, .prgsize, .chrsize]

/-- Past the groups of the fields the five operands that ASSEMBLE takes from the header have their
values, and nothing has ended the decode. -/
theorem foldl_evaluated_fields {s : State} (hn : 16 ≤ s.inputLen) (hs : HasSignature s.hdr)
    {x : Signals} (hx : x.result = none) :
    ∃ y, fieldGroups.foldl s.evaluated x = y ∧ y.result = none ∧ y.prg = some (prgUnits s.hdr) ∧
      y.chr = some (chrUnits s.hdr) ∧ y.mapper = some (mapper s.hdr) ∧
      y.verticalMirroring = some (verticalMirroring s.hdr) ∧
      y.fourScreen = some (fourScreenVram s.hdr) := by
  have hsel (g : HdrGroup) : s.Selects g := ⟨.inr hn, .inr (.inr hs)⟩
  have hopen (x : Signals) (g : HdrGroup) (hx : x.result = none) :
      s.evaluated x g = s.driven g x := evaluated_of_open hx (hsel g)
  refine ⟨_, rfl, ?_⟩
  simp [fieldGroups, hopen, hx, State.driven]

/-! ### The whole pipeline -/

theorem pipeline_eq : pipeline = .len :: .magic :: (fieldGroups ++ [.trainer, .assemble]) := rfl

/-- The last two groups end the decode of a validated header (R94 to R98). -/
theorem foldl_evaluated_trainer_assemble {s : State} (hn : 16 ≤ s.inputLen)
    (hs : HasSignature s.hdr) {y : Signals} (hopen : y.result = none)
    (hp : y.prg = some (prgUnits s.hdr)) (hc : y.chr = some (chrUnits s.hdr))
    (hm : y.mapper = some (mapper s.hdr))
    (hvm : y.verticalMirroring = some (verticalMirroring s.hdr))
    (hf : y.fourScreen = some (fourScreenVram s.hdr)) :
    ([.trainer, .assemble].foldl s.evaluated y).result = some s.decoded := by
  have hsel (g : HdrGroup) : s.Selects g := ⟨.inr hn, .inr (.inr hs)⟩
  have hv : s.Validated := ⟨hn, (signatureOk_iff s.hdr).2 hs⟩
  rw [List.foldl_cons, evaluated_of_open hopen (hsel .trainer), State.driven]
  cases ht : trainerField s.inputLen s.inputByte with
  | error e =>
    rw [foldl_evaluated_of_result s _ rfl, decoded_of_trainerField_error hv ht]
  | ok t =>
    change (s.evaluated { y with trainer := some t } .assemble).result = some s.decoded
    rw [evaluated_of_open (x := { y with trainer := some t }) hopen (hsel .assemble),
      decoded_of_trainerField_ok hv ht]
    simp only [State.driven, Signals.assembled, hp, hc, hm, hvm, hf]

/-- The pipeline on no evaluated signal comes to the result of `Decode`, at LEN, at MAGIC or at its
end. -/
theorem foldl_evaluated_pipeline (s : State) :
    (pipeline.foldl s.evaluated Signals.idle).result = some s.decoded := by
  rw [pipeline_eq, List.foldl_cons, evaluated_of_open rfl ⟨.inl rfl, .inl rfl⟩, State.driven]
  cases hl : lenchk s.inputLen with
  | some e => rw [foldl_evaluated_of_result s _ rfl, decoded_of_lenchk hl]
  | none =>
    have hn : 16 ≤ s.inputLen := lenchk_eq_none_iff.1 hl
    rw [List.foldl_cons, evaluated_of_open rfl ⟨.inr hn, .inr (.inl rfl)⟩, State.driven]
    cases hm : magicCheck s.hdr[0] s.hdr[1] s.hdr[2] s.hdr[3] with
    | some e => rw [foldl_evaluated_of_result s _ rfl, decoded_of_magicCheck hn hm]
    | none =>
      have hs : HasSignature s.hdr :=
        (signatureOk_iff s.hdr).1 ((magicCheck_eq_none_iff s.hdr).1 hm)
      rw [List.foldl_append]
      obtain ⟨y, hy, hopen, hp, hc, hmap, hvm, hf⟩ := foldl_evaluated_fields hn hs
        (x := { Signals.idle with lenPassed := true, magicPassed := true }) rfl
      exact hy ▸ foldl_evaluated_trainer_assemble hn hs hopen hp hc hmap hvm hf

/-- Settles O46: a run of requests evaluates the groups one after the other and changes the signals
alone, and the pipeline so evaluated comes to `Decode`. -/
theorem evaluatingThePipelineIsDecode : Obligations.EvaluatingThePipelineIsDecode := by
  intro s rest hidle hin
  have hresult : (pipeline.foldl s.evaluated s.sig).result = some s.decoded := by
    rw [hidle, foldl_evaluated_pipeline]
  exact ⟨_, run_evaluate pipeline rest s hin, hresult, ⟨rfl, rfl, rfl, fun _ => rfl⟩, rfl, rfl, rfl⟩

end Sys2Proof.Machine
end

section
/-! PROOF. The decoder reads the row that the operation table selects (R50, R56, R57). -/

namespace Sys2Proof.Machine

/-! ### The row of lowest priority number -/

/-- The rows of a group, in the order of the table. -/
def groupRows (g : HdrGroup) : List Row := hdrTable.filter fun r => r.group == g

/-- The better of the best row so far and the next: the lower priority number wins (R56). -/
def betterRow (best : Option Row) (r : Row) : Option Row :=
  match best with
  | none => some r
  | some b => if r.priority < b.priority then some r else some b

theorem foldl_betterRow_of_le {b : Row} {l : List Row} (h : ∀ r ∈ l, b.priority ≤ r.priority) :
    l.foldl betterRow (some b) = some b := by
  induction l with
  | nil => rfl
  | cons r l ih =>
    have hkeep : betterRow (some b) r = some b :=
      if_neg (Nat.not_lt.2 (h r List.mem_cons_self))
    rw [List.foldl_cons, hkeep, ih fun x hx => h x (List.mem_cons_of_mem r hx)]

theorem foldl_betterRow_of_sorted {l : List Row}
    (h : l.Pairwise fun a b => a.priority ≤ b.priority) : l.foldl betterRow none = l.head? := by
  cases l with
  | nil => rfl
  | cons r l => exact foldl_betterRow_of_le (List.pairwise_cons.1 h).1

/-- The table lists the rows of each group by rising priority number. -/
theorem groupRows_sorted (g : HdrGroup) :
    (groupRows g).Pairwise fun a b => a.priority ≤ b.priority := by
  cases g <;> decide

/-- So the row that the table selects is the first of its group that applies. -/
theorem tableRow_eq_find (g : HdrGroup) (w : HWord) :
    tableRow g w = (groupRows g).find? fun r => r.applies w := by
  have hrows : (hdrTable.filter fun r => r.group == g && r.applies w) =
      (groupRows g).filter fun r => r.applies w := by
    simp only [groupRows, List.filter_filter, Bool.and_comm]
  rw [← List.head?_filter, ← foldl_betterRow_of_sorted ((groupRows_sorted g).filter _), ← hrows]
  rfl

/-! ### What the patterns of the table say of the header -/

@[simp] theorem applies_signature (w : HWord) :
    (w &&& 0xFFFFFFFF#128 == 0x1A53454E#128) = signatureOk (headerOfWord w) :=
  Bool.eq_iff_iff.2 (beq_iff_eq.trans (fits_signature w))

@[simp] theorem applies_extended (w : HWord) :
    (w &&& 0xC000000FFFFFFFF#128 == 0x80000001A53454E#128) =
      (signatureOk (headerOfWord w) && isExtended (headerOfWord w)) := by
  rw [Bool.eq_iff_iff, beq_iff_eq, fits_extended, Bool.and_eq_true]

@[simp] theorem applies_prgExp (w : HWord) :
    (w &&& 0xF000C000000FFFFFFFF#128 == 0xF00080000001A53454E#128) =
      (signatureOk (headerOfWord w) && isExtended (headerOfWord w) &&
        decide (Field.prgHi (headerOfWord w) = Config.expSelect)) := by
  rw [Bool.eq_iff_iff, beq_iff_eq, fits_prgExp, Bool.and_eq_true, Bool.and_eq_true,
    decide_eq_true_iff, and_assoc, Config.expSelect]

@[simp] theorem applies_chrExp (w : HWord) :
    (w &&& 0xF0000C000000FFFFFFFF#128 == 0xF000080000001A53454E#128) =
      (signatureOk (headerOfWord w) && isExtended (headerOfWord w) &&
        decide (Field.chrHi (headerOfWord w) = Config.expSelect)) := by
  rw [Bool.eq_iff_iff, beq_iff_eq, fits_chrExp, Bool.and_eq_true, Bool.and_eq_true,
    decide_eq_true_iff, and_assoc, Config.expSelect]

@[simp] theorem applies_trainer (w : HWord) :
    (w &&& 0x40000FFFFFFFF#128 == 0x400001A53454E#128) =
      (signatureOk (headerOfWord w) && decide (Field.trainerFlag (headerOfWord w) = 1#1)) := by
  rw [Bool.eq_iff_iff, beq_iff_eq, fits_trainer, Bool.and_eq_true, decide_eq_true_iff]

/-- The mnemonic that the decoder reads is that of the selected row. -/
theorem decode_hdr_mnemonic (g : HdrGroup) (h : Header) :
    (match decode (.hdr g h) with
     | .ok i => some i.mnemonic
     | .error _ => none) = (selectRow g h).map Instr.mnemonic := by
  cases hrow : selectRow g h <;> simp [decode, hrow]

/-- The mnemonic of a group's first row whose pattern holds. -/
def groupMnemonic (g : HdrGroup) (w : HWord) : Option String :=
  ((groupRows g).find? fun r => r.applies w).map Row.mnemonic

theorem groupMnemonic_of_no_signature {g : HdrGroup} {w : HWord}
    (hs : signatureOk (headerOfWord w) = false) (hg : g ≠ .len) : groupMnemonic g w = none := by
  cases g with
  | len => exact absurd rfl hg
  | _ => simp [groupMnemonic, groupRows, hdrTable, Row.applies, hs]

/-- With the signature, the marker, the exponent nibble or the trainer flag picks the row of a group
that has several. -/
theorem selectRow_mnemonic_of_signature {g : HdrGroup} {w : HWord}
    (hs : signatureOk (headerOfWord w) = true) :
    (selectRow g (headerOfWord w)).map Instr.mnemonic = groupMnemonic g w := by
  simp only [groupMnemonic, groupRows, hdrTable, selectRow, onValid, onExtended, hs,
    Bool.true_and, if_true]
  cases g with
  | dialect | mapper | submap | timing =>
    cases he : isExtended (headerOfWord w) <;>
      simp [Row.applies, hs, he, Instr.mnemonic]
  | prgsize =>
    by_cases hx : Field.prgHi (headerOfWord w) = Config.expSelect <;>
      cases he : isExtended (headerOfWord w) <;>
      simp [Row.applies, hs, he, hx, Instr.mnemonic]
  | chrsize =>
    by_cases hx : Field.chrHi (headerOfWord w) = Config.expSelect <;>
      cases he : isExtended (headerOfWord w) <;>
      simp [Row.applies, hs, he, hx, Instr.mnemonic]
  | trainer =>
    by_cases hf : Field.trainerFlag (headerOfWord w) = 1#1 <;>
      simp [Row.applies, hs, hf, Instr.mnemonic]
  | _ => simp [Row.applies, hs, Instr.mnemonic]

/-- Settles O3: the table lists each group by rising priority, so the row it selects is the first
that applies, and the decoder asks for the same signature, marker, nibble and flag in the same
order. -/
theorem headerRowIsTheTablesLowestPriorityMatch :
    Obligations.HeaderRowIsTheTablesLowestPriorityMatch := by
  intro g w hg
  rw [tableRow_eq_find]
  refine (decode_hdr_mnemonic g _).trans ?_
  cases hs : signatureOk (headerOfWord w) with
  | false =>
    by_cases hlen : g = .len
    · subst hlen
      simp [selectRow, groupRows, hdrTable, Row.applies, Instr.mnemonic]
    · have hnone : selectRow g (headerOfWord w) = none :=
        selectRow_of_not_hasSignature (mt (signatureOk_iff _).2 (ne_true_of_eq_false hs)) hlen hg
      rw [hnone]
      exact (groupMnemonic_of_no_signature hs hlen).symm
  | true => exact selectRow_mnemonic_of_signature hs

end Sys2Proof.Machine
end

section
/-! PROOF. What operations write of the four elements and of the signals (R24, R25, R27, R62; log
13). -/

namespace Sys2Proof.Machine

/-! ### Which commands change an element -/

theorem afterCommand_hdr_ne {i : Instr} {s : State} {k : Nat} (hk : k < 16) (hc : IsCommand i)
    (hne : (afterCommand s i).hdr[k] ≠ s.hdr[k]) :
    i = .reset ∨
      ∃ din, i = .push din ∧ s.phase = .run ∧ s.cnt.toNat = k ∧
        (afterCommand s i).hdr[k] = din := by
  obtain rfl | ⟨din, rfl⟩ | rfl | rfl | rfl := hc
  case inr.inl =>
    have hread : (afterPush din s).hdr[k] = _ := afterPush_hdr s din k hk
    by_cases hput : s.phase = .run ∧ s.cnt.toNat = k
    · rw [if_pos hput] at hread
      exact .inr ⟨din, rfl, hput.1, hput.2, hread⟩
    · rw [if_neg hput] at hread
      exact absurd hread hne
  case inr.inr.inr.inr => exact .inl rfl
  all_goals exact absurd rfl hne

theorem afterCommand_cnt_ne {i : Instr} {s : State} (hc : IsCommand i)
    (hne : (afterCommand s i).cnt ≠ s.cnt) :
    ((i = .clr ∨ i = .reset) ∧ (afterCommand s i).cnt = 0#10) ∨
      ∃ din, i = .push din ∧ s.phase = .run ∧ s.cnt.toNat < 528 ∧
        (afterCommand s i).cnt.toNat = s.cnt.toNat + 1 := by
  obtain rfl | ⟨din, rfl⟩ | rfl | rfl | rfl := hc
  · exact absurd rfl hne
  · by_cases hcount : s.phase = .run ∧ s.cnt.toNat < 528
    · obtain ⟨hp, hlt⟩ := hcount
      exact .inr ⟨din, rfl, hp, hlt, afterPush_cnt_toNat din hp hlt⟩
    · exact absurd ((afterPush_cnt s din).trans (if_neg hcount)) hne
  · exact absurd rfl hne
  · exact .inl ⟨.inl rfl, rfl⟩
  · exact .inl ⟨.inr rfl, rfl⟩

theorem afterCommand_trnByte_ne {i : Instr} {s : State} {a : Nat} (hc : IsCommand i)
    (hne : (afterCommand s i).trnByte a ≠ s.trnByte a) :
    i = .reset ∨
      ∃ din, i = .push din ∧ s.phase = .run ∧ 16 ≤ s.cnt.toNat ∧ s.cnt.toNat < 528 ∧
        s.hdr[6].getLsbD 2 = true ∧ a = s.cnt.toNat - 16 ∧ (afterCommand s i).trnByte a = din := by
  obtain rfl | ⟨din, rfl⟩ | rfl | rfl | rfl := hc
  case inr.inl =>
    have hread : (afterPush din s).trnByte a = _ := afterPush_trnByte s din a
    split at hread
    · rename_i hput
      obtain ⟨hp, h16, h528, hflag, ha⟩ := hput
      exact .inr ⟨din, rfl, hp, h16, h528, hflag, ha, hread⟩
    · exact absurd hread hne
  case inr.inr.inr.inr => exact .inl rfl
  all_goals exact absurd rfl hne

/-! ### The statements -/

/-- Settles O17: layer 1 leaves `HDR` alone, and of the commands only RESET and a PUSH at its own
offset change it. -/
theorem onlyPushAndResetWriteHdr : Obligations.OnlyPushAndResetWriteHdr := by
  intro i s t k hk hexec hne
  obtain ⟨-, f, rfl⟩ | ⟨hc, rfl⟩ := exec_next_cases hexec
  · exact absurd rfl hne
  · exact afterCommand_hdr_ne hk hc hne

/-- Settles O18: layer 1 leaves `CNT` alone, and of the commands only CLR, RESET and a PUSH that
counts change it. -/
theorem onlyPushClrAndResetMoveCnt : Obligations.OnlyPushClrAndResetMoveCnt := by
  intro i s t hexec hne
  obtain ⟨-, f, rfl⟩ | ⟨hc, rfl⟩ := exec_next_cases hexec
  · exact absurd rfl hne
  · exact afterCommand_cnt_ne hc hne

/-- Settles O20: layer 1 leaves `TRN` alone, and of the commands only RESET and a PUSH past the
header with the trainer flag set change it. -/
theorem onlyPushAndResetWriteTrn : Obligations.OnlyPushAndResetWriteTrn := by
  intro i s t a hexec hne
  obtain ⟨-, f, rfl⟩ | ⟨hc, rfl⟩ := exec_next_cases hexec
  · exact absurd rfl hne
  · exact afterCommand_trnByte_ne hc hne

/-- Settles O29: an operation of layer 1 drives signals. -/
theorem layerOneWritesNoElement : Obligations.LayerOneWritesNoElement := by
  intro i s t hl hexec
  obtain ⟨f, hf⟩ := exec_layerOne hl s
  obtain rfl := Host.Outcome.next.inj (hf.symm.trans hexec)
  exact ⟨drive_sameBlock s f, drive_sameOwn s f⟩

/-- Settles O16: CLR, RESET and a PUSH that counts clear the signals, the other commands do not
touch them. -/
theorem commandsClearTheSignalsTheyMakeStale :
    Obligations.CommandsClearTheSignalsTheyMakeStale := by
  intro s t din
  refine ⟨fun h => ?clr, fun h => ?reset, fun h => ?push, fun h => ?endInput, fun h => ?nop⟩
  case clr => obtain rfl := Host.Outcome.next.inj ((exec_clr s).symm.trans h); rfl
  case reset => obtain rfl := Host.Outcome.next.inj ((exec_reset s).symm.trans h); rfl
  case push =>
    obtain rfl := Host.Outcome.next.inj ((exec_push din s).symm.trans h)
    exact afterPush_sig s din
  case endInput => obtain rfl := Host.Outcome.next.inj ((exec_endInput s).symm.trans h); rfl
  case nop => obtain rfl := Host.Outcome.next.inj ((exec_nop s).symm.trans h); rfl

end Sys2Proof.Machine
end

section
/-! PROOF. The status word and the outputs of a failure (R32, R110, R115). -/

namespace Sys2Proof.Machine

/-- The status words of a failure (R112). -/
def failureStatuses : List (BitVec 8) := [0xA0#8, 0xB0#8, 0xB1#8, 0xB2#8, 0xB3#8, 0xB6#8]

theorem errorStatus_mem {n : Nat} {B : Nat → Byte} {e : DecodeError}
    (h : decodeInput n B = .err e) : errorStatus e ∈ failureStatuses := by
  cases e with
  | tooShort => decide
  | invalidHeader i =>
    have hall : ∀ i : Fin 16, i ∈ [0, 1, 2, 3, 6] →
        errorStatus (.invalidHeader i) ∈ failureStatuses := by decide
    exact hall i (decodeInput_index_mem h)

/-- What the ports can show: nothing in `RUN`; in `DONE` a failure's status alone, or success. -/
theorem outputs_cases (s : State) (a : BitVec 9) :
    (s.phase = .run ∧ outputs s a = Outputs.only 0x00#8) ∨
    (s.phase = .done ∧ ∃ w ∈ failureStatuses, outputs s a = Outputs.only w) ∨
    (s.phase = .done ∧ (outputs s a).status = 0xC0#8) := by
  cases hp : s.phase with
  | run => exact .inl ⟨rfl, outputs_of_run hp a⟩
  | done =>
    rw [outputs_of_done hp]
    cases hd : decodeInput s.cnt.toNat s.inputByte with
    | err e => exact .inr (.inl ⟨rfl, _, errorStatus_mem hd, rfl⟩)
    | ok d => exact .inr (.inr ⟨rfl, rfl⟩)

/-- A failure sets DONE and exactly one of OK and ERR (R32). -/
theorem failureStatuses_bits {w : BitVec 8} (hw : w ∈ failureStatuses) :
    w.getLsbD 7 = true ∧ w.getLsbD 7 = (w.getLsbD 6 ^^ w.getLsbD 5) := by
  revert w; decide

/-- Settles O22: the status is 0, that of a failure, or that of success. -/
theorem statusWordIsOneOfEight : Obligations.StatusWordIsOneOfEight := by
  intro s a
  obtain ⟨-, h⟩ | ⟨-, w, hw, h⟩ | ⟨-, h⟩ := outputs_cases s a
  · rw [h]; decide
  · rw [h]
    exact List.mem_cons_of_mem _ (List.mem_cons_of_mem _ hw)
  · rw [h]; decide

/-- Settles O23: only a descriptor sets OK, and `DONE` is set by a descriptor and by a failure. -/
theorem noDescriptorWithoutSuccess : Obligations.NoDescriptorWithoutSuccess := by
  intro s a
  obtain ⟨hp, h⟩ | ⟨hp, w, hw, h⟩ | ⟨hp, h⟩ := outputs_cases s a
  · rw [h, hp]
    exact ⟨fun _ => rfl, by decide, by decide⟩
  · obtain ⟨hdone, hxor⟩ := failureStatuses_bits hw
    rw [h, hp]
    exact ⟨fun _ => rfl, iff_of_true hdone rfl, hxor⟩
  · rw [h, hp]
    exact ⟨fun h6 => absurd h6 (by decide), by decide, by decide⟩

/-- Settles O52: reset leaves the block in `RUN`, where nothing shows. -/
theorem resetStateIsIdle : Obligations.ResetStateIsIdle :=
  ⟨rfl, rfl, outputs_of_run rfl⟩

end Sys2Proof.Machine
end

section
/-! PROOF. Runs of commands (R21, R33, R34, R111). -/

namespace Sys2Proof.Machine

/-! ### What the outputs read -/

theorem outputs_congr {s t : State} (h : s.SameBlock t) (a : BitVec 9) :
    outputs s a = outputs t a := by
  obtain ⟨hhdr, hcnt, hphase, htrn⟩ := h
  have hbytes : s.inputByte = t.inputByte := by
    funext i
    simp only [State.inputByte, hhdr, htrn]
  simp only [outputs, State.decoded, State.inputLen, hphase, hcnt, hbytes, htrn]

theorem setInputs_sameBlock (s : State) (x : List Stimulus) : (s.setInputs x).SameBlock s :=
  ⟨rfl, rfl, rfl, fun _ => rfl⟩

theorem outputs_setInputs (s : State) (x : List Stimulus) (a : BitVec 9) :
    outputs (s.setInputs x) a = outputs s a :=
  outputs_congr (setInputs_sameBlock s x) a

theorem commandsOf_append (ps qs : List Pins) :
    commandsOf (ps ++ qs) = commandsOf ps ++ commandsOf qs :=
  List.filterMap_append

/-! ### The signals reach no port (log 2) -/

theorem loseContents_sameBlock {s t : State} (hc : s.cnt = t.cnt) (hp : s.phase = t.phase)
    (hr : s.resets = t.resets) : s.loseContents.SameBlock t.loseContents where
  hdr := by simp only [loseContents_hdr, hr]
  cnt := by simp only [loseContents_cnt, hc]
  phase := by simp only [loseContents_phase, hp]
  trn := trnByte_congr (by simp only [loseContents_trn]) (by simp only [loseContents_resets, hr])

/-- A command changes the four elements alike in two states that hold the same. -/
theorem afterCommand_sameBlock {s t : State} (i : Instr) (h : s.SameBlock t)
    (hr : s.resets = t.resets) :
    (afterCommand s i).SameBlock (afterCommand t i) ∧
      (afterCommand s i).resets = (afterCommand t i).resets := by
  obtain ⟨hhdr, hcnt, hphase, htrn⟩ := h
  cases i with
  | push din =>
    refine ⟨⟨header_ext fun k hk => ?_, ?_, ?_, fun a => ?_⟩, ?_⟩
    · exact (afterPush_hdr s din k hk).trans (by rw [hphase, hcnt, hhdr, ← afterPush_hdr]; rfl)
    · exact (afterPush_cnt s din).trans (by rw [hphase, hcnt, ← afterPush_cnt]; rfl)
    · exact (afterPush_phase s din).trans (hphase.trans (afterPush_phase t din).symm)
    · exact (afterPush_trnByte s din a).trans
        (by rw [hphase, hcnt, hhdr, htrn, ← afterPush_trnByte]; rfl)
    · exact (afterPush_sameOwn s din).resets.trans (hr.trans (afterPush_sameOwn t din).resets.symm)
  | endInput => exact ⟨⟨hhdr, hcnt, rfl, htrn⟩, hr⟩
  | clr => exact ⟨⟨hhdr, rfl, rfl, htrn⟩, hr⟩
  | reset => exact ⟨loseContents_sameBlock rfl rfl hr, congrArg (· + 1) hr⟩
  | _ => exact ⟨⟨hhdr, hcnt, hphase, htrn⟩, hr⟩

theorem foldl_afterCommand_sameBlock (l : List Instr) {s t : State} (h : s.SameBlock t)
    (hr : s.resets = t.resets) :
    (l.foldl afterCommand s).SameBlock (l.foldl afterCommand t) := by
  induction l generalizing s t with
  | nil => exact h
  | cons i l ih =>
    obtain ⟨h', hr'⟩ := afterCommand_sameBlock i h hr
    exact ih h' hr'

/-- Settles O28: commands read the four elements and the reset count, and so do the outputs. -/
theorem signalsNeverReachThePorts : Obligations.SignalsNeverReachThePorts := by
  intro s t ps h hr
  obtain ⟨hhdr, hcnt, hphase, htrn⟩ := foldl_afterCommand_sameBlock (commandsOf ps) h hr
  exact ⟨_, _, runEdges_eq ps s, runEdges_eq ps t, ⟨hhdr, hcnt, hphase, htrn⟩,
    outputs_congr ⟨hhdr, hcnt, hphase, htrn⟩⟩

/-! ### A finished decode -/

theorem afterCommand_of_done {s : State} {i : Instr} (h : s.phase = .done)
    (hi : i.startsNoDecode) : afterCommand s i = s := by
  cases i with
  | push din => exact afterPush_of_done din h
  | endInput => exact setPhase_same s h
  | clr => exact absurd rfl hi.1
  | reset => exact absurd rfl hi.2
  | _ => rfl

theorem foldl_afterCommand_of_done {s : State} (l : List Instr) (h : s.phase = .done)
    (hl : ∀ i ∈ l, i.startsNoDecode) : l.foldl afterCommand s = s := by
  induction l with
  | nil => rfl
  | cons i l ih =>
    obtain ⟨hi, hl⟩ := List.forall_mem_cons.1 hl
    rw [List.foldl_cons, afterCommand_of_done h hi, ih hl]

/-- Settles O24: in `DONE` each of the other commands leaves the state as it is. -/
theorem finishedDecodeIsFrozen : Obligations.FinishedDecodeIsFrozen := by
  intro s ps h hps
  refine ⟨s.setInputs [], ?_, setInputs_sameBlock s [], outputs_setInputs s []⟩
  rw [runEdges_eq, foldl_afterCommand_of_done _ h hps]

/-! ### What the length does to a decode -/

/-- `Decode` compares its length with 16 and with 528 and looks at it no further (R99). -/
theorem decodeInput_length_congr {n m : Nat} (h16 : n < 16 ↔ m < 16) (h528 : n < 528 ↔ m < 528)
    (B : Nat → Byte) : decodeInput n B = decodeInput m B := by
  have hlen : lenchk n = lenchk m := by simp only [lenchk_eq, h16]
  have htrainer : trainerField n B = trainerField m B := by simp only [trainerField_eq, h528]
  simp only [decodeInput, hlen, htrainer]

theorem decodeInput_min (n : Nat) (B : Nat → Byte) :
    decodeInput (min n 528) B = decodeInput n B :=
  decodeInput_length_congr (by omega) (by omega) B

/-- A decode gives a trainer only past 528 bytes and with the trainer flag set (R94, R95). -/
theorem trainer_of_decodeInput_ok {n : Nat} {B : Nat → Byte} {d : Descriptor}
    (h : decodeInput n B = .ok d) (ht : d.trainer ≠ none) :
    528 ≤ n ∧ trainerFlag (headerOf B) = true := by
  obtain ⟨-, hd⟩ | ⟨-, e, -, hd⟩ | ⟨-, -, -, -, hd⟩ | ⟨-, -, hn, hd⟩ := decodeInput_cases n B
  case inr.inr.inr =>
    obtain rfl := DecodeResult.ok.inj (hd.symm.trans h)
    by_cases hf : trainerFlag (headerOf B) = true
    · exact ⟨hn hf, hf⟩
    · exact absurd (if_neg hf) ht
  all_goals rw [hd] at h; cases h

/-- The byte at `trn_addr` shows only with a trainer (R110). -/
theorem ofResult_congr {r : DecodeResult} {x y : Byte}
    (h : ∀ d, r = .ok d → d.trainer ≠ none → x = y) :
    Outputs.ofResult r x = Outputs.ofResult r y := by
  cases r with
  | err e => rfl
  | ok d =>
    cases ht : d.trainer with
    | none => simp only [Outputs.ofResult, ht, Option.isSome_none, if_neg Bool.false_ne_true]
    | some block => rw [h d rfl (by rw [ht]; exact Option.some_ne_none block)]

/-! ### A state that holds an input as far as it has counted -/

/-- As far as `s` has counted, it holds the bytes of the input `B`: in `HDR`, and past it in `TRN`
when the trainer flag is set (R33 (b), (c)). -/
def State.Holds (s : State) (B : Nat → Byte) : Prop :=
  ∀ i, i < s.cnt.toNat → (i < 16 ∨ trainerFlag s.hdr = true) → s.inputByte i = B i

section
variable {s : State} {B : Nat → Byte}

theorem State.Holds.hdr_eq (h : s.Holds B) (hn : 16 ≤ s.cnt.toNat) : s.hdr = headerOf B := by
  rw [← headerOf_inputByte s]
  exact headerOf_congr fun i hi => h i (by omega) (.inl hi)

/-- In `DONE` the outputs of such a state are those of `Decode` of the input. -/
theorem State.Holds.outputs_eq (h : s.Holds B) (hp : s.phase = .done) (a : BitVec 9) :
    outputs s a = Outputs.ofResult (decodeInput s.cnt.toNat B) (B (16 + a.toNat)) := by
  have hdecode : decodeInput s.cnt.toNat s.inputByte = decodeInput s.cnt.toNat B := by
    refine decodeInput_congr (fun hn => ?_) fun hn hf => trainerOf_congr fun i hi => ?_
    · rw [headerOf_inputByte, h.hdr_eq hn]
    · rw [headerOf_inputByte] at hf
      exact h i (by omega) (.inr hf)
  rw [outputs_of_done hp, hdecode]
  refine ofResult_congr fun d hd ht => ?_
  obtain ⟨hn, hf⟩ := trainer_of_decodeInput_ok hd ht
  rw [← h.hdr_eq (by omega)] at hf
  rw [← inputByte_trainer]
  exact h _ (by omega) (.inr hf)

theorem holds_of_cnt_zero (hc : s.cnt = 0#10) : s.Holds B := by
  intro i hi
  rw [hc] at hi
  exact absurd hi (Nat.not_lt_zero i)

/-! ### PUSH, byte by byte -/

/-- A PUSH changes the one byte that `CNT` counts to, if it is one that the block keeps (R106). -/
theorem afterPush_inputByte (s : State) (din : Byte) (i : Nat) :
    (afterPush din s).inputByte i =
      if s.phase = .run ∧ i = s.cnt.toNat ∧ i < 528 ∧ (i < 16 ∨ trainerFlag s.hdr = true) then din
      else s.inputByte i := by
  by_cases hi : i < 16
  · have h528 : i < 528 := by omega
    have hcond : (s.phase = .run ∧ i = s.cnt.toNat ∧ i < 528 ∧
          (i < 16 ∨ trainerFlag s.hdr = true)) ↔
        (s.phase = .run ∧ s.cnt.toNat = i) := by
      simp only [hi, h528, true_or, and_true, eq_comm]
    rw [inputByte_of_lt _ hi, inputByte_of_lt _ hi, afterPush_hdr]
    simp only [hcond]
  · obtain ⟨a, rfl⟩ := Nat.exists_eq_add_of_le (Nat.le_of_not_lt hi)
    have hcond : (s.phase = .run ∧ 16 + a = s.cnt.toNat ∧ 16 + a < 528 ∧
          (16 + a < 16 ∨ trainerFlag s.hdr = true)) ↔
        (s.phase = .run ∧ 16 ≤ s.cnt.toNat ∧ s.cnt.toNat < 528 ∧ trainerFlag s.hdr = true ∧
          a = s.cnt.toNat - 16) := by
      constructor
      · rintro ⟨hp, hc, h528, hf⟩
        exact ⟨hp, by omega, by omega, hf.resolve_left hi, by omega⟩
      · rintro ⟨hp, h16, h528, hf, ha⟩
        exact ⟨hp, by omega, by omega, .inr hf⟩
    rw [inputByte_trainer, inputByte_trainer, afterPush_trnByte]
    simp only [hcond]

/-- A PUSH of the next byte of `C`, which is `B` as far as `s` has counted. -/
theorem State.Holds.push {C : Nat → Byte} {din : Byte} (h : s.Holds B) (hp : s.phase = .run)
    (hc : s.cnt.toNat < 528)
    (hC : ∀ i, i ≤ s.cnt.toNat → (i < 16 ∨ trainerFlag s.hdr = true) →
      C i = if i = s.cnt.toNat then din else B i) :
    (afterPush din s).Holds C := by
  intro i hi hkept
  rw [afterPush_cnt_toNat din hp hc] at hi
  have hkept' : i < 16 ∨ trainerFlag s.hdr = true := by
    by_cases h16 : 16 ≤ s.cnt.toNat
    · rwa [afterPush_hdr_of_ge din h16] at hkept
    · exact .inl (by omega)
  rw [hC i (by omega) hkept', afterPush_inputByte]
  by_cases hlast : i = s.cnt.toNat
  · rw [if_pos ⟨hp, hlast, by omega, hkept'⟩, if_pos hlast]
  · rw [if_neg fun hput => hlast hput.2.1, if_neg hlast]
    exact h i (by omega) hkept'

/-- PUSHes of the bytes of `B` from offset `k` on, which `s` has counted to (R33). -/
theorem foldl_push_holds (l : List Byte) {k : Nat} (h : s.Holds B) (hp : s.phase = .run)
    (hc : s.cnt.toNat = min k 528) (hl : ∀ i (hi : i < l.length), l[i] = B (k + i)) :
    ((l.map Instr.push).foldl afterCommand s).Holds B ∧
      ((l.map Instr.push).foldl afterCommand s).phase = .run ∧
      ((l.map Instr.push).foldl afterCommand s).cnt.toNat = min (k + l.length) 528 := by
  induction l generalizing s k with
  | nil => exact ⟨h, hp, hc⟩
  | cons b l ih =>
    have hb : b = B k := hl 0 (Nat.zero_lt_succ _)
    have hnext : (afterPush b s).Holds B ∧ (afterPush b s).cnt.toNat = min (k + 1) 528 := by
      by_cases hk : k < 528
      · have hck : s.cnt.toNat = k := by omega
        refine ⟨h.push hp (by omega) fun i _ _ => ?_, by rw [afterPush_cnt_toNat b hp] <;> omega⟩
        split
        · rw [hb, ‹i = _›, hck]
        · rfl
      · rw [afterPush_of_full b (by omega)]
        exact ⟨h, by omega⟩
    have hrest := ih hnext.1 ((afterPush_phase s b).trans hp) hnext.2 fun i hi => by
      rw [Nat.add_right_comm, Nat.add_assoc]
      exact hl (i + 1) (Nat.succ_lt_succ hi)
    rwa [Nat.add_right_comm, Nat.add_assoc] at hrest

end

/-! ### From CLR or RESET on -/

theorem afterCommand_start {start : Instr} (hstart : start = .clr ∨ start = .reset) (s : State) :
    (afterCommand s start).phase = .run ∧ (afterCommand s start).cnt = 0#10 := by
  obtain rfl | rfl := hstart <;> exact ⟨rfl, rfl⟩

theorem listByte_of_lt {bytes : List Byte} {i : Nat} (hi : i < bytes.length) :
    listByte bytes i = bytes[i] := by
  rw [listByte, List.getD_eq_getElem _ _ hi]

/-- After CLR or RESET and the PUSHes of the first `j` bytes of an input, the block holds that
input as far as it has counted. -/
theorem foldl_start_push (bytes : List Byte) (j : Nat) {start : Instr}
    (hstart : start = .clr ∨ start = .reset) (s : State) :
    ∃ t, (start :: (bytes.take j).map Instr.push).foldl afterCommand s = t ∧
      t.Holds (listByte bytes) ∧ t.phase = .run ∧ t.cnt.toNat = min (min j bytes.length) 528 := by
  obtain ⟨hp, hc⟩ := afterCommand_start hstart s
  have h := foldl_push_holds (bytes.take j) (k := 0) (holds_of_cnt_zero (B := listByte bytes) hc) hp
    (by rw [hc]; rfl) fun i hi => by
      rw [List.length_take] at hi
      rw [Nat.zero_add, listByte_of_lt (by omega), List.getElem_take]
  rw [Nat.zero_add, List.length_take] at h
  exact ⟨_, rfl, h⟩

/-- Settles O25: each PUSH stores its byte at the offset that `CNT` has reached. -/
theorem pushedBytesAreHeld : Obligations.PushedBytesAreHeld := by
  intro s bytes ps start hstart hps
  obtain ⟨t, ht, hholds, hp, hc⟩ := foldl_start_push bytes bytes.length hstart s
  rw [List.take_length] at ht
  rw [Nat.min_self] at hc
  have hbyte (i : Nat) (hi : i < bytes.length) (h528 : i < 528)
      (hkept : i < 16 ∨ trainerFlag t.hdr = true) : bytes[i]? = some (t.inputByte i) := by
    rw [hholds i (by omega) hkept, listByte_of_lt hi, List.getElem?_eq_getElem hi]
  refine ⟨t.setInputs [], by rw [runEdges_eq, hps, ht], hp, hc, fun k hk hlen => ?_,
    fun _ hf a ha hlen => ?_⟩
  · exact (hbyte k hlen (by omega) (.inl hk)).trans (congrArg some (inputByte_of_lt t hk))
  · exact (hbyte (16 + a) hlen (by omega) (.inr hf)).trans (congrArg some (inputByte_trainer t a))

/-- Settles O26: END finds the block holding the input as far as `Decode` reads it, and nothing
after it changes the block. -/
theorem portMachineComputesDecode : Obligations.PortMachineComputesDecode := by
  intro s bytes j ps after start hstart hmin hj hps hafter
  obtain ⟨t, ht, hholds, hp, hc⟩ := foldl_start_push bytes j hstart s
  have hcnt : t.cnt.toNat = min bytes.length 528 := by omega
  have hdone : (decodeCommands start (bytes.take j)).foldl afterCommand s = t.setPhase .done := by
    rw [decodeCommands, ← List.cons_append, List.foldl_append, ht]
    rfl
  refine ⟨(t.setPhase .done).setInputs [], ?_, fun a => ?_⟩
  · rw [runEdges_eq, commandsOf_append, List.foldl_append, hps, hdone,
      foldl_afterCommand_of_done _ rfl hafter]
  · have hholds' : (t.setPhase .done).Holds (listByte bytes) := hholds
    rw [outputs_setInputs, hholds'.outputs_eq rfl, setPhase_cnt, hcnt, decodeInput_min]

/-! ### Contents from before CLR or RESET -/

/-- Two states that have counted alike and hold the same bytes as far as that goes. -/
structure State.Alike (s t : State) : Prop where
  phase : s.phase = t.phase
  cnt : s.cnt = t.cnt
  holds : s.Holds t.inputByte

theorem State.Alike.outputs_eq {s t : State} (h : s.Alike t) (a : BitVec 9) :
    outputs s a = outputs t a := by
  cases hp : t.phase with
  | run => rw [outputs_of_run hp, outputs_of_run (h.phase.trans hp)]
  | done =>
    rw [outputs_of_done hp, h.holds.outputs_eq (h.phase.trans hp), h.cnt, inputByte_trainer]

theorem State.Alike.push {s t : State} (h : s.Alike t) (din : Byte) :
    (afterPush din s).Alike (afterPush din t) := by
  by_cases hopen : s.phase = .run ∧ s.cnt.toNat < 528
  · obtain ⟨hp, hc⟩ := hopen
    refine ⟨?_, ?_, h.holds.push hp hc fun i hi hkept => ?_⟩
    · rw [afterPush_phase, afterPush_phase, h.phase]
    · rw [afterPush_cnt, afterPush_cnt, h.phase, h.cnt]
    · have hkept' : i < 16 ∨ trainerFlag t.hdr = true := by
        by_cases h16 : i < 16
        · exact .inl h16
        · have hhdr : s.hdr = t.hdr := by rw [h.holds.hdr_eq (by omega), headerOf_inputByte]
          exact hhdr ▸ hkept
      have hcond : (t.phase = .run ∧ i = t.cnt.toNat ∧ i < 528 ∧
          (i < 16 ∨ trainerFlag t.hdr = true)) ↔ i = s.cnt.toNat := by
        rw [← h.phase, ← h.cnt]
        exact ⟨fun hput => hput.2.1, fun hlast => ⟨hp, hlast, by omega, hkept'⟩⟩
      simp only [afterPush_inputByte, hcond]
  · have hopen' : ¬ (t.phase = .run ∧ t.cnt.toNat < 528) := by rwa [← h.phase, ← h.cnt]
    rwa [afterPush_of_not_counting din hopen, afterPush_of_not_counting din hopen']

theorem State.Alike.afterCommand {s t : State} (h : s.Alike t) (i : Instr) :
    (Machine.afterCommand s i).Alike (Machine.afterCommand t i) := by
  cases i with
  | push din => exact h.push din
  | endInput => exact ⟨rfl, h.cnt, h.holds⟩
  | clr => exact ⟨rfl, rfl, holds_of_cnt_zero rfl⟩
  | reset => exact ⟨rfl, rfl, holds_of_cnt_zero rfl⟩
  | _ => exact h

theorem State.Alike.foldl {s t : State} (h : s.Alike t) (l : List Instr) :
    (l.foldl Machine.afterCommand s).Alike (l.foldl Machine.afterCommand t) := by
  induction l generalizing s t with
  | nil => exact h
  | cons i l ih => exact ih (h.afterCommand i)

/-- Settles O27: after CLR or RESET nothing has been counted, so any two states are alike, and they
stay alike. -/
theorem earlierContentsNeverReachAnOutput : Obligations.EarlierContentsNeverReachAnOutput := by
  intro s t ps start later hstart hps
  obtain ⟨hrs, hcs⟩ := afterCommand_start hstart s
  obtain ⟨hrt, hct⟩ := afterCommand_start hstart t
  have hstarted : (Machine.afterCommand s start).Alike (Machine.afterCommand t start) :=
    ⟨hrs.trans hrt.symm, hcs.trans hct.symm, holds_of_cnt_zero hcs⟩
  refine ⟨_, _, runEdges_eq ps s, runEdges_eq ps t, fun a => ?_⟩
  rw [hps, outputs_setInputs, outputs_setInputs]
  exact (hstarted.foldl later).outputs_eq a

end Sys2Proof.Machine
end

section
/-! PROOF. What decodes, and what the result depends on (R58, R99, R113). -/

namespace Sys2Proof.Machine

/-! ### What decodes -/

/-- Past the length, the signature and the trainer's length, `Decode` assembles a descriptor
(R98). -/
theorem decodeInput_of_decodable {n : Nat} {B : Nat → Byte} (hn : 16 ≤ n)
    (hs : HasSignature (headerOf B)) (ht : trainerFlag (headerOf B) = true → 528 ≤ n) :
    decodeInput n B = .ok (assemble (prgUnits (headerOf B)) (chrUnits (headerOf B))
      (mapper (headerOf B)) (verticalMirroring (headerOf B)) (fourScreenVram (headerOf B))
      (if trainerFlag (headerOf B) = true then some (trainerOf B) else none)) := by
  have hmagic := (magicCheck_eq_none_iff (headerOf B)).2 ((signatureOk_iff _).2 hs)
  by_cases hf : trainerFlag (headerOf B) = true
  · have htrainer : trainerField n B = .ok (some (trainerOf B)) := by
      rw [trainerField_eq, if_pos hf, if_neg (Nat.not_lt.2 (ht hf))]
    simp only [decodeInput, lenchk_eq_none_iff.2 hn, hmagic, htrainer, if_pos hf]
  · have htrainer : trainerField n B = .ok none := by rw [trainerField_eq, if_neg hf]
    simp only [decodeInput, lenchk_eq_none_iff.2 hn, hmagic, htrainer, if_neg hf]

theorem trainerFlag_headerOf (B : Nat → Byte) : trainerFlag (headerOf B) = (B 6).getLsbD 2 := by
  rw [trainerFlag, headerOf_getElem]

theorem decodable_of_decodeInput_ok {n : Nat} {B : Nat → Byte} {d : Descriptor}
    (h : decodeInput n B = .ok d) :
    16 ≤ n ∧ HasSignature (headerOf B) ∧ (trainerFlag (headerOf B) = true → 528 ≤ n) := by
  obtain ⟨-, hd⟩ | ⟨-, e, -, hd⟩ | ⟨-, -, -, -, hd⟩ | ⟨hn, hs, ht, -⟩ := decodeInput_cases n B
  case inr.inr.inr => exact ⟨hn, (signatureOk_iff _).1 hs, ht⟩
  all_goals rw [hd] at h; cases h

/-- Settles O48: the stages of `Decode` fail on nothing but the three causes, and what they pass is
assembled. -/
theorem everythingElseDecodes : Obligations.EverythingElseDecodes := by
  refine ⟨fun n B => ⟨fun ⟨d, hd⟩ => ?_, fun ⟨hn, hs, ht⟩ => ?_⟩, fun n B hn hs ht => ?_⟩
  · rw [← trainerFlag_headerOf]
    exact decodable_of_decodeInput_ok hd
  · rw [← trainerFlag_headerOf] at ht
    exact ⟨_, decodeInput_of_decodable hn hs ht⟩
  · rw [← trainerFlag_headerOf] at ht
    refine ⟨_, decodeInput_of_decodable hn hs ht, rfl, rfl, rfl, ?_, ?_, fun hf => ?_, fun hf => ?_⟩
    · exact congrArg (BitVec.getLsbD · 0) (headerOf_getElem B 6 (by decide))
    · exact congrArg (BitVec.getLsbD · 3) (headerOf_getElem B 6 (by decide))
    · exact if_neg (by rw [trainerFlag_headerOf, hf]; exact Bool.false_ne_true)
    · exact ⟨trainerOf B, if_pos (by rw [trainerFlag_headerOf, hf]), trainerOf_getElem B⟩

/-! ### What the result depends on -/

/-- Two inputs decode alike when MAGIC reports the same of both and, with the signature, the stages
after it give the same. -/
theorem decodeInput_congr_stages {n : Nat} {B C : Nat → Byte}
    (hmagic : 16 ≤ n → magicCheck (B 0) (B 1) (B 2) (B 3) = magicCheck (C 0) (C 1) (C 2) (C 3))
    (hstages : 16 ≤ n → HasSignature (headerOf B) →
      prgUnits (headerOf B) = prgUnits (headerOf C) ∧
      chrUnits (headerOf B) = chrUnits (headerOf C) ∧
      mapper (headerOf B) = mapper (headerOf C) ∧
      verticalMirroring (headerOf B) = verticalMirroring (headerOf C) ∧
      fourScreenVram (headerOf B) = fourScreenVram (headerOf C) ∧
      trainerField n B = trainerField n C) :
    decodeInput n B = decodeInput n C := by
  cases hl : lenchk n with
  | some e => simp only [decodeInput, hl]
  | none =>
    have hn := lenchk_eq_none_iff.1 hl
    cases hm : magicCheck (B 0) (B 1) (B 2) (B 3) with
    | some e => simp only [decodeInput, hl, headerOf_getElem, hm, ← hmagic hn]
    | none =>
      have hs : HasSignature (headerOf B) := by
        simpa only [HasSignature, headerOf_getElem] using magicCheck_input_eq_none_iff.1 hm
      obtain ⟨hp, hc, hmap, hv, hf, ht⟩ := hstages hn hs
      simp only [decodeInput, hl, headerOf_getElem, hm, ← hmagic hn, hp, hc, hmap, hv, hf, ht]

theorem marker_of_upper_bits (b : Byte) :
    b.extractLsb' 2 2 = (b.extractLsb' 2 6).extractLsb' 0 2 := by
  revert b; decide

theorem hi_nibble_of_upper_bits (b : Byte) :
    b.extractLsb' 4 4 = (b.extractLsb' 2 6).extractLsb' 2 4 := by
  revert b; decide

theorem hi_nibble_congr {b c : Byte} (h : ∀ k, k ≠ 1 → b.getLsbD k = c.getLsbD k) :
    b.extractLsb' 4 4 = c.extractLsb' 4 4 := by
  apply BitVec.eq_of_getLsbD_eq
  intro k hk
  rw [BitVec.getLsbD_extractLsb', BitVec.getLsbD_extractLsb', h (4 + k) (by omega)]

section
variable {h h' : Header} (hmark : MarkedExtended h ↔ MarkedExtended h')
include hmark

theorem prgUnits_congr (h4 : h[4] = h'[4]) (h9 : MarkedExtended h → h[9] = h'[9]) :
    prgUnits h = prgUnits h' := by
  by_cases hm : MarkedExtended h
  · rw [prgUnits_of_marked hm, prgUnits_of_marked (hmark.1 hm), h4, h9 hm]
  · rw [prgUnits_of_not_marked hm, prgUnits_of_not_marked (mt hmark.2 hm), h4]

theorem chrUnits_congr (h5 : h[5] = h'[5]) (h9 : MarkedExtended h → h[9] = h'[9]) :
    chrUnits h = chrUnits h' := by
  by_cases hm : MarkedExtended h
  · rw [chrUnits_of_marked hm, chrUnits_of_marked (hmark.1 hm), h5, h9 hm]
  · rw [chrUnits_of_not_marked hm, chrUnits_of_not_marked (mt hmark.2 hm), h5]

theorem mapper_congr (h6 : h[6].extractLsb' 4 4 = h'[6].extractLsb' 4 4)
    (h7 : h[7].extractLsb' 4 4 = h'[7].extractLsb' 4 4)
    (h8 : MarkedExtended h → h[8].extractLsb' 0 4 = h'[8].extractLsb' 0 4) :
    mapper h = mapper h' := by
  by_cases hm : MarkedExtended h
  · rw [mapper_of_marked hm, mapper_of_marked (hmark.1 hm), h6, h7, h8 hm]
  · rw [mapper_of_not_marked hm, mapper_of_not_marked (mt hmark.2 hm), h6, h7]

end

theorem trainerField_congr {n : Nat} {B C : Nat → Byte}
    (hf : trainerFlag (headerOf B) = trainerFlag (headerOf C))
    (ht : 528 ≤ n → trainerFlag (headerOf B) = true → trainerOf B = trainerOf C) :
    trainerField n B = trainerField n C := by
  rw [trainerField_eq, trainerField_eq, ← hf]
  split_ifs with hset hn
  · rfl
  · rw [ht (Nat.le_of_not_lt hn) hset]
  · rfl

/-- `Decode(n, B) = Decode(k, B[0..k-1])` with `k = min(n, 528)` (R99). -/
theorem decodeList_take (bytes : List Byte) : decodeList bytes = decodeList (bytes.take 528) := by
  have hlen : (bytes.take 528).length = min bytes.length 528 := by
    rw [List.length_take, Nat.min_comm]
  rw [decodeList, decodeList, hlen, ← decodeInput_min]
  refine decodeInput_eq_of_agree_below fun i hi => ?_
  rw [listByte_of_lt (by omega), listByte_of_lt (by omega), List.getElem_take]

/-- Settles O49: each field of the descriptor is a function of the bits named, in either dialect,
and 528 bytes hold them all. -/
theorem decodeDependsOnTheseBitsAlone : Obligations.DecodeDependsOnTheseBitsAlone := by
  refine ⟨fun n m B C h16 h528 hmagic hfields htrainer => ?_, decodeList_take⟩
  rw [← decodeInput_length_congr h16 h528 C]
  refine decodeInput_congr_stages (fun hn => ?magic) fun hn hs => ?stages
  case magic =>
    have h := hmagic hn
    rw [h 0 (by decide), h 1 (by decide), h 2 (by decide), h 3 (by decide)]
  case stages =>
    obtain ⟨h4, h5, h6, h7, hext⟩ := hfields hn hs
    have hmark : MarkedExtended (headerOf B) ↔ MarkedExtended (headerOf C) := by
      simp only [MarkedExtended, headerOf_getElem, marker_of_upper_bits, h7]
    have hflag : trainerFlag (headerOf B) = trainerFlag (headerOf C) := by
      rw [trainerFlag_headerOf, trainerFlag_headerOf, h6 2 (by decide)]
    have h9 : MarkedExtended (headerOf B) → (headerOf B)[9] = (headerOf C)[9] := fun hm => by
      simpa only [headerOf_getElem] using (hext hm).2
    refine ⟨prgUnits_congr hmark ?byte4 h9, chrUnits_congr hmark ?byte5 h9,
      mapper_congr hmark ?byte6 ?byte7 ?byte8, ?bit0, ?bit3,
      trainerField_congr hflag fun hn' hf => trainerBlock_ext fun a ha => ?trainer⟩
    case byte4 => simpa only [headerOf_getElem] using h4
    case byte5 => simpa only [headerOf_getElem] using h5
    case byte6 => simpa only [headerOf_getElem] using hi_nibble_congr h6
    case byte7 => simp only [headerOf_getElem, hi_nibble_of_upper_bits, h7]
    case byte8 => simpa only [headerOf_getElem] using fun hm => (hext hm).1
    case bit0 => simpa only [verticalMirroring, headerOf_getElem] using h6 0 (by decide)
    case bit3 => simpa only [fourScreenVram, headerOf_getElem] using h6 3 (by decide)
    case trainer =>
      rw [trainerFlag_headerOf] at hf
      rw [trainerOf_getElem, trainerOf_getElem]
      exact htrainer (by omega) hs hf (16 + a) (by omega) (by omega)

end Sys2Proof.Machine
end

section
/-! PROOF. UNPACK in hardware, and the byte sizes of the consumer (R83, R84). -/

namespace Sys2Proof.Machine

/-- The 3-bit odd constant that UNPACK shifts: `2 * multiplier + 1` (R83). -/
def oddFactor (raw : RawSize) : BitVec 3 := raw.extractLsb' 0 2 ++ 1#1

theorem oddFactor_toNat (raw : RawSize) :
    (oddFactor raw).toNat = 2 * (raw.extractLsb' 0 2).toNat + 1 := by
  rw [oddFactor, BitVec.toNat_append, ← Nat.shiftLeft_add_eq_or_of_lt (by decide),
    Nat.shiftLeft_eq, Nat.mul_comm]
  rfl

theorem oddFactor_bit_zero (raw : RawSize) : (oddFactor raw).getLsbD 0 = true := by
  rw [oddFactor, BitVec.getLsbD_append]
  rfl

theorem unpackUnits_eq_shiftLeft (raw : RawSize) :
    unpackUnits raw = (oddFactor raw).setWidth 66 <<< (raw.extractLsb' 2 6).toNat := by
  apply BitVec.eq_of_toNat_eq
  rw [BitVec.toNat_shiftLeft, BitVec.toNat_setWidth_of_le (by decide), oddFactor_toNat,
    Nat.shiftLeft_eq, Nat.mul_comm, ← unpack_eq, Nat.mod_eq_of_lt (unpack_lt raw),
    unpackUnits_toNat]

theorem getLsbD_unpackUnits (raw : RawSize) (k : Nat) :
    (unpackUnits raw).getLsbD k = true ↔
      k < 66 ∧ (raw.extractLsb' 2 6).toNat ≤ k ∧
        (oddFactor raw).getLsbD (k - (raw.extractLsb' 2 6).toNat) = true := by
  rw [unpackUnits_eq_shiftLeft, BitVec.getLsbD_shiftLeft, BitVec.getLsbD_setWidth]
  simp only [Bool.and_eq_true, decide_eq_true_eq, Bool.not_eq_true', decide_eq_false_iff_not]
  constructor
  · rintro ⟨⟨hk, hle⟩, -, hbit⟩
    exact ⟨hk, Nat.le_of_not_lt hle, hbit⟩
  · rintro ⟨hk, hle, hbit⟩
    exact ⟨⟨hk, Nat.not_lt.2 hle⟩, by omega, hbit⟩

/-- Settles O38: the product of R81 is its odd factor shifted by the exponent, and the factor has
three bits, the lowest of them 1. -/
theorem unpackIsALeftBarrelShift : Obligations.UnpackIsALeftBarrelShift := by
  intro raw
  have hexp : (raw.extractLsb' 2 6).toNat < 64 := (raw.extractLsb' 2 6).isLt
  refine ⟨unpackUnits_eq_shiftLeft raw, ?_, fun k hk => ?_⟩
  · rw [getLsbD_unpackUnits, Nat.sub_self]
    exact ⟨by omega, Nat.le_refl _, oddFactor_bit_zero raw⟩
  · obtain ⟨-, hle, hbit⟩ := (getLsbD_unpackUnits raw k).1 hk
    have hlt := BitVec.lt_of_getLsbD hbit
    exact ⟨hle, by omega⟩

/-- Settles O51: a multiplication by `2^14` or `2^13` of a 66-bit count. -/
theorem consumerByteSizesAreShifts : Obligations.ConsumerByteSizesAreShifts := by
  intro d
  have hprg : d.prgRomSize.toNat < 2 ^ 66 := d.prgRomSize.isLt
  have hchr : d.chrRomSize.toNat < 2 ^ 66 := d.chrRomSize.isLt
  have hprgBytes : d.prgBytes = d.prgRomSize.toNat * 2 ^ 14 := rfl
  have hchrBytes : d.chrBytes = d.chrRomSize.toNat * 2 ^ 13 := rfl
  rw [Nat.shiftLeft_eq, Nat.shiftLeft_eq]
  exact ⟨hprgBytes, by omega, hchrBytes, by omega⟩

end Sys2Proof.Machine
end
